-- ==== Sys2Proof/Word.lean ====
section
/-! DEFINITION. The widths of the block: Word, register index, cell address (spec 00_scope.md R7, R9; 10_state.md R11). -/

namespace Sys2Proof

/-- A Word: 16-bit unsigned, arithmetic modulo 65536; every register, memory cell and the pc holds one (R11). -/
abbrev Word := BitVec 16

/-- Half of a memory cell as the model stores it. The hardware itself has nothing narrower than a Word (R29, R30). -/
abbrev Byte := BitVec 8

/-- A register index field: 3 bits, so that no index is out of range (R12). -/
abbrev RegIdx := BitVec 3

/-- The number of a memory cell, 0..8191: an address after the reduction modulo 8192 (R26, R27). -/
abbrev CellAddr := BitVec 13

end Sys2Proof
end

