-- ==== Sys2Proof/Syntax.lean ====
section
/-! DEFINITION. The instructions: one constructor per row of spec/opcode_table.json, with the operand fields that the
decoder of 30_encoding.md R50 hands to the engine. -/

namespace Sys2Proof

/-- A decoded Operation with its operands (R47, R50). An immediate stands here as the decoder delivers it: `imm` is the
sign-extended Word of R44, `target` the zero-extended Word of R45. Bits that an operation does not use are not part of
it (R49). -/
inductive Instr where
  /-- Add (R55). -/
  | add (regDest regA regB : RegIdx)
  /-- Sub (R56). -/
  | sub (regDest regA regB : RegIdx)
  /-- Or (R57). -/
  | or (regDest regA regB : RegIdx)
  /-- And (R58). -/
  | and (regDest regA regB : RegIdx)
  /-- SetLessThan (R59). -/
  | slt (regDest regA regB : RegIdx)
  /-- Undefined function code 5 (R48, R60). -/
  | undefF5
  /-- Undefined function code 6 (R48, R60). -/
  | undefF6
  /-- Undefined function code 7 (R48, R60). -/
  | undefF7
  /-- JumpRegister (R64). -/
  | jr (regA : RegIdx)
  /-- Undefined function code 9 (R48, R60). -/
  | undefF9
  /-- Undefined function code 10 (R48, R60). -/
  | undefF10
  /-- Undefined function code 11 (R48, R60). -/
  | undefF11
  /-- Undefined function code 12 (R48, R60). -/
  | undefF12
  /-- Undefined function code 13 (R48, R60). -/
  | undefF13
  /-- Undefined function code 14 (R48, R60). -/
  | undefF14
  /-- Undefined function code 15 (R48, R60). -/
  | undefF15
  /-- AddImmediate (R61): `regB` is the destination, `regA` the source. -/
  | addi (regB regA : RegIdx) (imm : Word)
  /-- Jump (R65). -/
  | j (target : Word)
  /-- JumpAndLink (R66). -/
  | jal (target : Word)
  /-- LoadWord (R71): `regB` is the destination, `regA` the base. -/
  | lw (regB regA : RegIdx) (imm : Word)
  /-- StoreWord (R72): `regB` is the value stored, `regA` the base. -/
  | sw (regB regA : RegIdx) (imm : Word)
  /-- JumpIfEqual (R67). -/
  | jeq (regA regB : RegIdx) (imm : Word)
  /-- SetLessThanImmediate (R62): `regB` is the destination, `regA` the left operand. -/
  | slti (regB regA : RegIdx) (imm : Word)
  deriving DecidableEq, Repr

end Sys2Proof
end

