-- ==== Sys2Proof/WellFormed.lean ====
section
/-! DEFINITION. Which instructions some word encodes: the ranges of the two immediates (30_encoding.md R44, R45). -/

namespace Sys2Proof

/-- A Word that is a sign-extended 7-bit value: 0x0000..0x003F or 0xFFC0..0xFFFF (R44). -/
def immInRange (imm : Word) : Bool :=
  decide (imm.toNat < 0x40) || decide (0xFFC0 ≤ imm.toNat)

/-- A Word that is a zero-extended 13-bit value: 0..8191 (R45). -/
def targetInRange (target : Word) : Bool :=
  decide (target.toNat < 8192)

/-- The instruction is one that a word encodes. Register fields are right by their type (R12). -/
def Instr.wf : Instr → Bool
  | .add _ _ _ => true
  | .sub _ _ _ => true
  | .or _ _ _ => true
  | .and _ _ _ => true
  | .slt _ _ _ => true
  | .undefF5 => true
  | .undefF6 => true
  | .undefF7 => true
  | .jr _ => true
  | .undefF9 => true
  | .undefF10 => true
  | .undefF11 => true
  | .undefF12 => true
  | .undefF13 => true
  | .undefF14 => true
  | .undefF15 => true
  | .addi _ _ imm => immInRange imm
  | .j target => targetInRange target
  | .jal target => targetInRange target
  | .lw _ _ imm => immInRange imm
  | .sw _ _ imm => immInRange imm
  | .jeq _ _ imm => immInRange imm
  | .slti _ _ imm => immInRange imm

end Sys2Proof
end

