-- ==== Sys2Proof/Decode.lean ====
section
/-! DEFINITION. The decoder and the encoder (30_encoding.md): fields R42, formats R43, immediates R44 and R45, opcode
and function-code maps R46 to R48, the total decoder R50. -/

namespace Sys2Proof

/-- `bits[15:13]` (R42). -/
def opcodeField (bits : Word) : BitVec 3 := bits.extractLsb' 13 3
/-- `bits[12:10]` (R42). -/
def regAField (bits : Word) : RegIdx := bits.extractLsb' 10 3
/-- `bits[9:7]` (R42). -/
def regBField (bits : Word) : RegIdx := bits.extractLsb' 7 3
/-- `bits[6:4]` (R42). -/
def regDestField (bits : Word) : RegIdx := bits.extractLsb' 4 3
/-- `bits[3:0]` (R42). -/
def funcCodeField (bits : Word) : BitVec 4 := bits.extractLsb' 0 4
/-- `bits[6:0]` (R42). -/
def imm7Field (bits : Word) : BitVec 7 := bits.extractLsb' 0 7
/-- `bits[12:0]` (R42). -/
def imm13Field (bits : Word) : BitVec 13 := bits.extractLsb' 0 13

/-- `sext_7` of R44: OR with 0xFF80 if bit 6 is set. -/
def sext7 (v : BitVec 7) : Word :=
  if v.getLsbD 6 then v.setWidth 16 ||| 0xFF80#16 else v.setWidth 16

/-- `zext_13` of R45. -/
def zext13 (v : BitVec 13) : Word := v.setWidth 16

/-- The function-code group under opcode 0 (R47); the ten codes left over are undefined (R48).
The field has 4 bits, so the last arm is the code 15 alone. -/
def decodeRRR (bits : Word) : Instr :=
  let d := regDestField bits
  let a := regAField bits
  let b := regBField bits
  match (funcCodeField bits).toNat with
  | 0 => .add d a b
  | 1 => .sub d a b
  | 2 => .or d a b
  | 3 => .and d a b
  | 4 => .slt d a b
  | 5 => .undefF5
  | 6 => .undefF6
  | 7 => .undefF7
  | 8 => .jr a
  | 9 => .undefF9
  | 10 => .undefF10
  | 11 => .undefF11
  | 12 => .undefF12
  | 13 => .undefF13
  | 14 => .undefF14
  | _ => .undefF15

/-- The decoder: a pure, total function from a word to an Operation with its operands (R50). No word is rejected. The
opcode has 3 bits, so the last arm is the opcode 7 alone (R46). -/
def decode (bits : Word) : Instr :=
  let a := regAField bits
  let b := regBField bits
  let imm := sext7 (imm7Field bits)
  let target := zext13 (imm13Field bits)
  match (opcodeField bits).toNat with
  | 0 => decodeRRR bits
  | 1 => .addi b a imm
  | 2 => .j target
  | 3 => .jal target
  | 4 => .lw b a imm
  | 5 => .sw b a imm
  | 6 => .jeq a b imm
  | _ => .slti b a imm

/-- Format RRR (R43): opcode 0, regA, regB, regDest, funcCode. -/
def wordRRR (func : BitVec 4) (regDest regA regB : RegIdx) : Word :=
  0#3 ++ regA ++ regB ++ regDest ++ func

/-- Format RRI (R43): opcode, regA, regB, imm7; the field holds the low 7 bits of the immediate (R52). -/
def wordRRI (opcode : BitVec 3) (regA regB : RegIdx) (imm : Word) : Word :=
  opcode ++ regA ++ regB ++ imm.extractLsb' 0 7

/-- Format J (R43): opcode, imm13. -/
def wordJ (opcode : BitVec 3) (target : Word) : Word :=
  opcode ++ target.extractLsb' 0 13

/-- The word of a well-formed instruction (R43, R46, R47). Ignored fields are written as 0, as the spec writes them
(R52, R64). -/
def encode : Instr → Word
  | .add d a b => wordRRR 0 d a b
  | .sub d a b => wordRRR 1 d a b
  | .or d a b => wordRRR 2 d a b
  | .and d a b => wordRRR 3 d a b
  | .slt d a b => wordRRR 4 d a b
  | .undefF5 => wordRRR 5 0 0 0
  | .undefF6 => wordRRR 6 0 0 0
  | .undefF7 => wordRRR 7 0 0 0
  | .jr a => wordRRR 8 0 a 0
  | .undefF9 => wordRRR 9 0 0 0
  | .undefF10 => wordRRR 10 0 0 0
  | .undefF11 => wordRRR 11 0 0 0
  | .undefF12 => wordRRR 12 0 0 0
  | .undefF13 => wordRRR 13 0 0 0
  | .undefF14 => wordRRR 14 0 0 0
  | .undefF15 => wordRRR 15 0 0 0
  | .addi b a imm => wordRRI 1 a b imm
  | .j target => wordJ 2 target
  | .jal target => wordJ 3 target
  | .lw b a imm => wordRRI 4 a b imm
  | .sw b a imm => wordRRI 5 a b imm
  | .jeq a b imm => wordRRI 6 a b imm
  | .slti b a imm => wordRRI 7 a b imm

/-- A row of spec/opcode_table.json: its mnemonic, and the words it covers, those with `word AND mask = bits`. -/
structure OpcodeRow where
  mnemonic : String
  mask : Word
  bits : Word
  deriving DecidableEq, Repr

/-- The row of an instruction (R46 to R48; spec/opcode_table.json). -/
def Instr.row : Instr → OpcodeRow
  | .add _ _ _ => ⟨"add", 0xE00F, 0x0000⟩
  | .sub _ _ _ => ⟨"sub", 0xE00F, 0x0001⟩
  | .or _ _ _ => ⟨"or", 0xE00F, 0x0002⟩
  | .and _ _ _ => ⟨"and", 0xE00F, 0x0003⟩
  | .slt _ _ _ => ⟨"slt", 0xE00F, 0x0004⟩
  | .undefF5 => ⟨"undef.f5", 0xE00F, 0x0005⟩
  | .undefF6 => ⟨"undef.f6", 0xE00F, 0x0006⟩
  | .undefF7 => ⟨"undef.f7", 0xE00F, 0x0007⟩
  | .jr _ => ⟨"jr", 0xE00F, 0x0008⟩
  | .undefF9 => ⟨"undef.f9", 0xE00F, 0x0009⟩
  | .undefF10 => ⟨"undef.f10", 0xE00F, 0x000A⟩
  | .undefF11 => ⟨"undef.f11", 0xE00F, 0x000B⟩
  | .undefF12 => ⟨"undef.f12", 0xE00F, 0x000C⟩
  | .undefF13 => ⟨"undef.f13", 0xE00F, 0x000D⟩
  | .undefF14 => ⟨"undef.f14", 0xE00F, 0x000E⟩
  | .undefF15 => ⟨"undef.f15", 0xE00F, 0x000F⟩
  | .addi _ _ _ => ⟨"addi", 0xE000, 0x2000⟩
  | .j _ => ⟨"j", 0xE000, 0x4000⟩
  | .jal _ => ⟨"jal", 0xE000, 0x6000⟩
  | .lw _ _ _ => ⟨"lw", 0xE000, 0x8000⟩
  | .sw _ _ _ => ⟨"sw", 0xE000, 0xA000⟩
  | .jeq _ _ _ => ⟨"jeq", 0xE000, 0xC000⟩
  | .slti _ _ _ => ⟨"slti", 0xE000, 0xE000⟩

/-- The opcode table, in its own order. -/
def opcodeTable : List OpcodeRow :=
  [(Instr.add 0 0 0).row, (Instr.sub 0 0 0).row, (Instr.or 0 0 0).row, (Instr.and 0 0 0).row,
    (Instr.slt 0 0 0).row, Instr.undefF5.row, Instr.undefF6.row, Instr.undefF7.row,
    (Instr.jr 0).row, Instr.undefF9.row, Instr.undefF10.row, Instr.undefF11.row,
    Instr.undefF12.row, Instr.undefF13.row, Instr.undefF14.row, Instr.undefF15.row,
    (Instr.addi 0 0 0).row, (Instr.j 0).row, (Instr.jal 0).row, (Instr.lw 0 0 0).row,
    (Instr.sw 0 0 0).row, (Instr.jeq 0 0 0).row, (Instr.slti 0 0 0).row]

/-- The instruction is one of the ten undefined function codes (R48). -/
def Instr.isUndefined : Instr → Bool
  | .undefF5 | .undefF6 | .undefF7 | .undefF9 | .undefF10 => true
  | .undefF11 | .undefF12 | .undefF13 | .undefF14 | .undefF15 => true
  | .add _ _ _ | .sub _ _ _ | .or _ _ _ | .and _ _ _ | .slt _ _ _ => false
  | .jr _ | .addi _ _ _ | .j _ | .jal _ | .lw _ _ _ | .sw _ _ _ | .jeq _ _ _ | .slti _ _ _ => false

/-- The 16-bit word whose bits are the `nbits` low bits of `w`, the bits above `nbits` 0. -/
def tableWord (nbits w : Nat) : Word := BitVec.ofNat 16 (w % 2 ^ nbits)

/-- What the decoder reads from an instruction given as a number, bit 0 the least significant bit of its one word; none
where the number has bits that a 16-bit word does not hold (R41). -/
def decodeTableWord (nbits w : Nat) : Option Instr :=
  if w % 2 ^ nbits < 2 ^ 16 then some (decode (tableWord nbits w)) else none

end Sys2Proof
end

