-- ==== Sys2Proof/Machine/Flags.lean ====
section
/-! DEFINITION. The hardware has no flags (10_state.md R17). What stands here is the two comparisons, whose outcome goes
to a register or decides a jump (40_three_register.md R54). -/

namespace Sys2Proof.Machine

/-- 1 if `a < b` as unsigned 16-bit numbers, else 0 (R54, R59, R62). -/
def lessThanWord (a b : Word) : Word := if a.toNat < b.toNat then 1 else 0

/-- Equality on all 16 bits (R54, R67). -/
def equalWords (a b : Word) : Bool := decide (a = b)

end Sys2Proof.Machine
end

