-- ==== Sys2Proof/Config.lean ====
section
/-! DEFINITION. What the source fixes (00_scope.md R7) and what the instantiator chooses (R8). -/

namespace Sys2Proof

/-- The three parameters of one cache level, counted in memory words, as CONFIG supplies them and not yet checked
(00_scope.md R8; 45_cache_controller.md R75). -/
structure LevelShape where
  /-- The number of memory words the level can stand for. -/
  capacity : Nat
  /-- The number of lines in each row. -/
  associativity : Nat
  /-- The number of consecutive memory words one line stands for. -/
  blockSize : Nat
  deriving DecidableEq, Repr

/-- `MEMSIZE`: the number of memory cells (R7). -/
def Config.memSize : Nat := 8192

/-- `LINKREG`: the register JumpAndLink writes (R7, R66). -/
def Config.linkReg : RegIdx := 7

/-- The reset value of the pc (R7). -/
def Config.resetPc : Word := 0

/-- L1 of the constant configuration `Config.cache`. DESIGN CHOICE (log entry 2), unsafe: R8 leaves `NLEVELS` and the
shapes to the instantiator. These are the levels of the spec's test program P3. -/
def Config.levelOne : LevelShape := ⟨2, 1, 2⟩

/-- L2 of the constant configuration `Config.cache`. DESIGN CHOICE (log entry 2), unsafe. -/
def Config.levelTwo : LevelShape := ⟨8, 2, 2⟩

/-- `FUEL` (R8, 70_reset_and_hazards.md R109): how many steps the party that drives RUN allows, or unbounded. -/
inductive Fuel where
  | steps (bound : Nat)
  | unbounded
  deriving DecidableEq, Repr

/-- The default of `FUEL` (R8, R109). -/
def Config.fuel : Fuel := .unbounded

/-- What a byte of the memory image that is not listed reads as. DESIGN CHOICE (log entry 3), unsafe: R8 leaves
`MEM_INIT` to the loader. -/
def Config.unlistedByte : Byte := 0

end Sys2Proof
end

