-- ==== Sys2Proof/Machine/Configuration.lean ====
section
/-! DEFINITION. The configuration of the cache controller (45_cache_controller.md, section 1). Its legality is a
precondition of construction (R76, 90_conflicts.md C11, 93_implementation_defined.md U3): a configuration carries the
proof of it, so that no machine, start state or step of an illegal one can be written down. -/

namespace Sys2Proof.Machine

/-- `rows = capacity / (associativity × blockSize)` (R76). -/
def rowCount (sh : LevelShape) : Nat :=
  sh.capacity / (sh.associativity * sh.blockSize)

/-- The legality of a level (R75, R76): three positive parameters, and the row count an exact integer of at least 1. -/
def shapeLegal (sh : LevelShape) : Bool :=
  decide (0 < sh.capacity) && decide (0 < sh.associativity) && decide (0 < sh.blockSize) &&
    decide (sh.capacity % (sh.associativity * sh.blockSize) = 0) && decide (1 ≤ rowCount sh)

/-- The parameters of a level together with their legality: what a level can be built with (R75, R76). -/
structure LegalShape where
  shape : LevelShape
  legal : shapeLegal shape = true
  deriving DecidableEq, Repr

/-- A configuration of the hardware, one constructor for each legal `NLEVELS` and none for any other (R8, R74). It is a
constant of one instantiation and no state of the machine (00_scope.md R7, 10_state.md R21). -/
inductive CacheConfig where
  | absent
  | oneLevel (l1 : LegalShape)
  | twoLevels (l1 l2 : LegalShape)
  deriving DecidableEq, Repr

/-- The name of a level (R74), as an event carries it (R86). -/
inductive LevelName where
  | L1
  | L2
  deriving DecidableEq, Repr

/-- The parameters of the configured levels, L1 first (R8). -/
def configuredShapes : CacheConfig → List LevelShape
  | .absent => []
  | .oneLevel s1 => [s1.shape]
  | .twoLevels s1 s2 => [s1.shape, s2.shape]

/-- The parameters of the level of a name, where it is configured (R74). -/
def levelShape? (cfg : CacheConfig) : LevelName → Option LevelShape
  | .L1 => (configuredShapes cfg)[0]?
  | .L2 => (configuredShapes cfg)[1]?

end Sys2Proof.Machine

namespace Sys2Proof

/-- The configuration of the machine that `exec` and `step` are, and that `State.reset` is the start of (log entries 1
and 2). `execIn`, `stepIn`, `blockIn`, `boot` and `drive` take any other configuration as their argument. -/
def Config.cache : Machine.CacheConfig :=
  .twoLevels ⟨Config.levelOne, by decide⟩ ⟨Config.levelTwo, by decide⟩

end Sys2Proof
end

