-- ==== Sys2Proof/Machine/Cache.lean ====
section
/-! DEFINITION. The cache controller (45_cache_controller.md): a directory of tags that classifies loads and stores,
replaces by true LRU and emits events. It holds no data (R90). -/

namespace Sys2Proof.Machine

/-- `blockId` of R79. -/
def blockId (sh : LevelShape) (addr : CellAddr) : Nat := addr.toNat / sh.blockSize

/-- `rowIndex` of R79. -/
def rowIndex (sh : LevelShape) (addr : CellAddr) : Nat := blockId sh addr % rowCount sh

/-- `tag` of R79. -/
def tagOf (sh : LevelShape) (addr : CellAddr) : Nat := blockId sh addr / rowCount sh

/-- One line of a row: `EMPTY`, or the tag of the block that occupies it (R77). -/
inductive Line where
  | empty
  | tag (t : Nat)
  deriving DecidableEq, Repr

/-- A row: its lines in order, the line to be replaced next at the front (R77, R83). -/
abbrev Row := List Line

/-- The directory of one level: its rows (R77). The parameters stand in the configuration, not here (R21). -/
abbrev Directory := List Row

/-- The directories of the block, each without rows where its level is not configured (R20, R88). -/
structure Directories where
  l1 : Directory
  l2 : Directory
  deriving DecidableEq, Repr

/-- The status of an event (R81). -/
inductive AccessStatus where
  | hit
  | miss
  | storeWrite
  deriving DecidableEq, Repr

/-- An AccessEvent (R86). `address` is the masked effective address, 0..8191. -/
structure AccessEvent where
  level : LevelName
  status : AccessStatus
  pc : Word
  address : CellAddr
  row : Nat
  deriving DecidableEq, Repr

/-- A directory at reset: every line of every row holds `EMPTY` (R78). -/
def emptyDirectory (sh : LevelShape) : Directory :=
  List.replicate (rowCount sh) (List.replicate sh.associativity .empty)

/-- Lookup (R80): the position of the tag in the row, scanned from the front. -/
def lookupTag (row : Row) (t : Nat) : Option Nat :=
  row.findIdx? (· == Line.tag t)

/-- Update of a row (R82, R83): the line at the hit position, or the front line on a miss, is removed, and a line with
the tag is appended at the end. -/
def updateRow (row : Row) (t : Nat) : Row :=
  match lookupTag row t with
  | some i => row.eraseIdx i ++ [.tag t]
  | none => row.eraseIdx 0 ++ [.tag t]

/-- The status of the event (R81). -/
def statusOf (isStore hit : Bool) : AccessStatus :=
  if isStore then .storeWrite else if hit then .hit else .miss

/-- The row an access with address `addr` falls on (R79). -/
def rowAt (sh : LevelShape) (dir : Directory) (addr : CellAddr) : Row :=
  dir.getD (rowIndex sh addr) []

/-- Whether the lookup of an address hits (R80). -/
def levelHits (sh : LevelShape) (dir : Directory) (addr : CellAddr) : Bool :=
  (lookupTag (rowAt sh dir addr) (tagOf sh addr)).isSome

/-- The directory after an access (R84): row `rowIndex` is updated, every other row stands. -/
def levelAccess (sh : LevelShape) (dir : Directory) (addr : CellAddr) : Directory :=
  dir.set (rowIndex sh addr) (updateRow (rowAt sh dir addr) (tagOf sh addr))

/-- The event a level emits for an access (R81, R84, R86). -/
def levelEvent (sh : LevelShape) (dir : Directory) (name : LevelName) (addr : CellAddr) (pcv : Word)
    (isStore : Bool) : AccessEvent :=
  ⟨name, statusOf isStore (levelHits sh dir addr), pcv, addr, rowIndex sh addr⟩

/-- `CacheAccess` (R85, R88): the directories after an access and the events it emits, L1 before L2. L2 is reached by a
store, or by a load that misses L1. -/
def cacheAccess (cfg : CacheConfig) (d : Directories) (addr : CellAddr) (pcv : Word) (isStore : Bool) :
    Directories × List AccessEvent :=
  match cfg with
  | .absent => (d, [])
  | .oneLevel s1 => (⟨levelAccess s1.shape d.l1 addr, d.l2⟩, [levelEvent s1.shape d.l1 .L1 addr pcv isStore])
  | .twoLevels s1 s2 =>
    if isStore || !levelHits s1.shape d.l1 addr then
      (⟨levelAccess s1.shape d.l1 addr, levelAccess s2.shape d.l2 addr⟩,
        [levelEvent s1.shape d.l1 .L1 addr pcv isStore, levelEvent s2.shape d.l2 .L2 addr pcv isStore])
    else (⟨levelAccess s1.shape d.l1 addr, d.l2⟩, [levelEvent s1.shape d.l1 .L1 addr pcv isStore])

/-- The directories right after reset, every line `EMPTY` (R78, R106). -/
def emptyDirectories : CacheConfig → Directories
  | .absent => ⟨[], []⟩
  | .oneLevel s1 => ⟨emptyDirectory s1.shape, []⟩
  | .twoLevels s1 s2 => ⟨emptyDirectory s1.shape, emptyDirectory s2.shape⟩

/-- The directory of the level of a name. -/
def Directories.level (d : Directories) : LevelName → Directory
  | .L1 => d.l1
  | .L2 => d.l2

end Sys2Proof.Machine
end

