-- ==== Sys2Proof/Machine/Memory.lean ====
section
/-! DEFINITION. The memory array (20_memory.md): 8192 cells of one Word, kept as a canonical list of bytes. The hardware
has no byte order and nothing narrower than a Word (R29, R30): that a cell's two halves stand at byte keys 2a (bits 7..0)
and 2a + 1 (bits 15..8) is the model's (DESIGN CHOICE, log entry 4, safe). Programs reach whole cells only. -/

namespace Sys2Proof.Machine

/-- The memory array as a list of (key, byte) pairs in canonical form (`Memory.wf`). -/
abbrev Memory := List Host.Cell

/-- The byte at a key; a key that is not listed holds `Config.unlistedByte`. -/
def Memory.readByte : Memory → Nat → Byte
  | [], _ => Config.unlistedByte
  | (k, v) :: rest, key => if k = key then v else Memory.readByte rest key

/-- The entry for a byte at a key: none where it is what an unlisted key holds anyway. -/
def Memory.entry (key : Nat) (v : Byte) : Memory :=
  if v = Config.unlistedByte then [] else [(key, v)]

/-- Writes the byte at a key, keeping the canonical form. -/
def Memory.writeByte : Memory → Nat → Byte → Memory
  | [], key, v => Memory.entry key v
  | (k, w) :: rest, key, v =>
    if k < key then (k, w) :: Memory.writeByte rest key v
    else if k = key then Memory.entry key v ++ rest
    else Memory.entry key v ++ (k, w) :: rest

/-- The Word in a cell (R16, R29). -/
def Memory.readCell (m : Memory) (a : CellAddr) : Word :=
  m.readByte (2 * a.toNat + 1) ++ m.readByte (2 * a.toNat)

/-- The memory with one cell written, the whole Word (R29). -/
def Memory.writeCell (m : Memory) (a : CellAddr) (v : Word) : Memory :=
  (m.writeByte (2 * a.toNat) (v.extractLsb' 0 8)).writeByte (2 * a.toNat + 1) (v.extractLsb' 8 8)

/-- `addr mod 8192`, that is `addr[12:0]` (R27). -/
def cellOf (addr : Word) : CellAddr := addr.extractLsb' 0 13

/-- The cells below `n` of an image, loaded into an array whose other cells are unlisted (R107). -/
def Memory.loadBelow (image : CellAddr → Word) : Nat → Memory
  | 0 => []
  | n + 1 => (Memory.loadBelow image n).writeCell (BitVec.ofNat 13 n) (image (BitVec.ofNat 13 n))

/-- LOAD: the memory array that holds a complete image (R6, R107). -/
def Memory.ofImage (image : CellAddr → Word) : Memory :=
  Memory.loadBelow image Config.memSize

/-- The canonical form: keys strictly rising, no entry equal to what an unlisted key holds, every key half of a cell
that exists (R26). -/
def Memory.wf (m : Memory) : Bool :=
  decide (m.Pairwise fun p q => p.1 < q.1) &&
    m.all fun p => decide (p.1 < 2 * Config.memSize) && decide (p.2 ≠ Config.unlistedByte)

end Sys2Proof.Machine
end

