-- ==== Sys2Proof/Machine/State.lean ====
section
/-! DEFINITION. The state of the block (10_state.md R11 to R22), the reasons a step could stop, and the state after
reset. -/

namespace Sys2Proof.Machine

/-- The run state (R15). No instruction reads it. -/
inductive RunState where
  | running
  | halted
  deriving DecidableEq, Repr

/-- Everything the spec gives the machine. There are no flags, no control or status registers, no modes and no saved
exception state (R17, R18, R19, R99). -/
structure State where
  /-- The general registers; slot 0 is the hard-wired zero (R12, R13). -/
  regs : Vector Word 8
  /-- The program counter, all 16 bits (R14). -/
  pc : Word
  /-- Running or Halted (R15). -/
  run : RunState
  /-- The memory array (R16). -/
  mem : Memory
  /-- The tag directories of the cache levels (R20). The configuration is no state (R21). -/
  caches : Directories
  /-- The events emitted so far, the first one first (R87). The block keeps no log: this is the history of its output,
  which R21 allows a model to keep (DESIGN CHOICE, log entry 5, safe). -/
  events : List AccessEvent
  deriving DecidableEq, Repr

/-- Why the machine could stop with a fault: it has no constructor, because the hardware raises nothing (R92) and a
model must not add a fault (93_implementation_defined.md, section 3). -/
inductive Fault where
  deriving DecidableEq, Repr

/-- Why a machine is refused. -/
inductive Refusal where
  /-- An instruction without a meaning. No arm of `exec` uses it: every instruction has its meaning. Safe. -/
  | notModelled (mnemonic : String)
  /-- Raised by `configure`, and so by `boot`, alone, before any run: the number of cache levels is not 0, 1 or 2 (R74, R98). Safe. -/
  | illegalLevelCount (levels : Nat)
  /-- Raised by `configure`, and so by `boot`, alone, before any run: a level whose parameters are not legal (R76, R98). Safe. -/
  | illegalLevelShape (level : LevelName)
  deriving DecidableEq, Repr

/-- What executing an instruction answers. -/
abbrev Result := Host.Outcome State Fault Refusal

/-- The start state of a run of the machine with a configuration (R22, R106): registers 0, pc 0, Running, every line
`EMPTY`, no event emitted, and the memory array that LOAD supplied. -/
def startState (cfg : CacheConfig) (mem : Memory) : State where
  regs := Vector.replicate 8 0
  pc := Config.resetPc
  run := .running
  mem := mem
  caches := emptyDirectories cfg
  events := []

/-- The machine right after reset (R22), with the configuration `Config.cache` (log entry 2) and nothing listed in memory,
which is the image with every cell 0 (log entry 3). -/
def State.reset : State := startState Config.cache []

end Sys2Proof.Machine
end

