-- ==== Sys2Proof/Machine/Ops.lean ====
section
/-! DEFINITION. The named operations over registers, pc, run state, memory and the cache controller: the primitives of
00_scope.md R10. The hardware takes no exception, saves nothing and returns from nothing (60_exceptions.md R92, R96,
R97), so there is no operation for it. -/

namespace Sys2Proof.Machine

/-- `x[i]` (R10): register 0 reads as 0 (R13). -/
def State.readReg (s : State) (r : RegIdx) : Word :=
  if r = 0 then 0 else s.regs[r.toNat]'r.isLt

/-- `x[i] <- v` (R10): a write to register 0 is accepted and lost (R13). -/
def State.writeReg (s : State) (r : RegIdx) (v : Word) : State :=
  { s with regs := if r = 0 then s.regs else s.regs.set r.toNat v r.isLt }

/-- `pc <- v` (R10): all 16 bits (R14). -/
def State.setPc (s : State) (v : Word) : State := { s with pc := v }

/-- The pc of the sequential successor: `(cur + 1) mod 65536` (R14, R63). -/
def nextPc (cur : Word) : Word := cur + 1

/-- `run <- Halted` (R10, R15). -/
def State.halt (s : State) : State := { s with run := .halted }

/-- Reads a cell, the whole Word (R29). -/
def State.loadCell (s : State) (a : CellAddr) : Word := s.mem.readCell a

/-- Writes a cell, the whole Word (R29). -/
def State.storeCell (s : State) (a : CellAddr) (v : Word) : State := { s with mem := s.mem.writeCell a v }

/-- `MemRead(addr)` (R27). -/
def State.memRead (s : State) (addr : Word) : Word := s.loadCell (cellOf addr)

/-- `MemWrite(addr, v)` (R27). -/
def State.memWrite (s : State) (addr v : Word) : State := s.storeCell (cellOf addr) v

/-- `CacheAccess` (R85) under a configuration, with its events appended to the stream (R87). -/
def State.presentAccess (s : State) (cfg : CacheConfig) (addr : CellAddr) (pcv : Word) (isStore : Bool) : State :=
  { s with
    caches := (cacheAccess cfg s.caches addr pcv isStore).1
    events := s.events ++ (cacheAccess cfg s.caches addr pcv isStore).2 }

/-- The instruction word: the cell `pc mod 8192` (R14, R23). The cache controller is not consulted (R40). -/
def State.fetchWord (s : State) : Word := s.memRead s.pc

/-- The end of an instruction that computes a value: the destination is written and the pc advances (R63). -/
def State.writeAndAdvance (s : State) (r : RegIdx) (v : Word) : State :=
  (s.writeReg r v).setPc (nextPc s.pc)

/-- What an undefined function code does: nothing, not even to the pc (R60). -/
def State.stall (s : State) : State := s

/-- What a Halted engine does: it performs no fetch and all state keeps its value (R15, R105). That this is a step at
all is the model's (DESIGN CHOICE, log entry 6, safe). -/
def State.idle (s : State) : State := s

end Sys2Proof.Machine
end

