-- ==== Sys2Proof/Machine/Operands.lean ====
section
/-! DEFINITION. The operand forms: a register, an immediate that the decoder has widened, and the one addressing mode
(43_load_store.md R70). -/

namespace Sys2Proof.Machine

/-- `EffAddr` (R70): base register plus displacement, wrapped at 16 bits and then masked to 13. -/
def effAddr (s : State) (regA : RegIdx) (imm : Word) : CellAddr := cellOf (s.readReg regA + imm)

/-- The target of a taken JumpIfEqual (R67): relative to the next instruction. -/
def relativeTarget (cur imm : Word) : Word := nextPc cur + imm

end Sys2Proof.Machine
end

