-- ==== Sys2Proof/Machine/ControlTransfer.lean ====
section
/-! DEFINITION. Control transfer and the halt condition (42_control_transfer.md). There are no delay slots (R63). -/

namespace Sys2Proof.Machine

/-- JumpRegister (R64): the whole Word goes into the pc. -/
def execJr (regA : RegIdx) (s : State) : Result :=
  .next (s.setPc (s.readReg regA))

/-- Jump (R65): Halted where the target equals the 16-bit pc it was fetched with, the pc kept; else taken. -/
def execJ (target : Word) (s : State) : Result :=
  .next (if equalWords target s.pc then s.halt else s.setPc target)

/-- JumpAndLink (R66): register 7 takes the unmasked `cur + 1`. It never halts (R68). -/
def execJal (target : Word) (s : State) : Result :=
  .next ((s.writeReg Config.linkReg (nextPc s.pc)).setPc target)

/-- JumpIfEqual (R67): relative to `cur + 1` where the registers are equal. -/
def execJeq (regA regB : RegIdx) (imm : Word) (s : State) : Result :=
  .next (s.setPc
    (if equalWords (s.readReg regA) (s.readReg regB) then relativeTarget s.pc imm else nextPc s.pc))

end Sys2Proof.Machine
end

