-- ==== Sys2Proof/Machine/Immediate.lean ====
section
/-! DEFINITION. Register-immediate arithmetic (41_immediate.md). The immediate is the sign-extended Word (R44). -/

namespace Sys2Proof.Machine

/-- AddImmediate (R61): the sum modulo 65536. -/
def execAddi (regB regA : RegIdx) (imm : Word) (s : State) : Result :=
  .next (s.writeAndAdvance regB (s.readReg regA + imm))

/-- SetLessThanImmediate (R62): the sign-extended immediate, compared unsigned. -/
def execSlti (regB regA : RegIdx) (imm : Word) (s : State) : Result :=
  .next (s.writeAndAdvance regB (lessThanWord (s.readReg regA) imm))

end Sys2Proof.Machine
end

