-- ==== Sys2Proof/Machine/LoadStore.lean ====
section
/-! DEFINITION. Loads and stores (43_load_store.md). The order within a step is that of R73: the address, the cache
controller, the memory array, the destination and the pc. The configuration of the cache controller is an argument (R8),
which the meanings that `exec` calls fill with the constant `Config.cache` (log entries 1 and 2). -/

namespace Sys2Proof.Machine

/-- LoadWord (R71) in the machine with a configuration: the value comes from the memory array, never from the cache. -/
def loadWordIn (cfg : CacheConfig) (regB regA : RegIdx) (imm : Word) (s : State) : Result :=
  let addr := effAddr s regA imm
  let seen := s.presentAccess cfg addr s.pc false
  .next (seen.writeAndAdvance regB (seen.loadCell addr))

/-- StoreWord (R72) in the machine with a configuration: the whole register goes to the cell, whatever the directory
holds. -/
def storeWordIn (cfg : CacheConfig) (regB regA : RegIdx) (imm : Word) (s : State) : Result :=
  let addr := effAddr s regA imm
  let seen := s.presentAccess cfg addr s.pc true
  .next ((seen.storeCell addr (seen.readReg regB)).setPc (nextPc s.pc))

/-- LoadWord (R71). -/
def execLw (regB regA : RegIdx) (imm : Word) (s : State) : Result :=
  loadWordIn Config.cache regB regA imm s

/-- StoreWord (R72). -/
def execSw (regB regA : RegIdx) (imm : Word) (s : State) : Result :=
  storeWordIn Config.cache regB regA imm s

end Sys2Proof.Machine
end

