-- ==== Sys2Proof/Machine/ThreeRegister.lean ====
section
/-! DEFINITION. The three-register instructions (40_three_register.md). -/

namespace Sys2Proof.Machine

/-- Add (R55): the sum modulo 65536. -/
def execAdd (regDest regA regB : RegIdx) (s : State) : Result :=
  .next (s.writeAndAdvance regDest (s.readReg regA + s.readReg regB))

/-- Sub (R56): `regA` minus `regB` modulo 65536. -/
def execSub (regDest regA regB : RegIdx) (s : State) : Result :=
  .next (s.writeAndAdvance regDest (s.readReg regA - s.readReg regB))

/-- Or (R57), bitwise. -/
def execOr (regDest regA regB : RegIdx) (s : State) : Result :=
  .next (s.writeAndAdvance regDest (s.readReg regA ||| s.readReg regB))

/-- And (R58), bitwise. -/
def execAnd (regDest regA regB : RegIdx) (s : State) : Result :=
  .next (s.writeAndAdvance regDest (s.readReg regA &&& s.readReg regB))

/-- SetLessThan (R59), unsigned. -/
def execSlt (regDest regA regB : RegIdx) (s : State) : Result :=
  .next (s.writeAndAdvance regDest (lessThanWord (s.readReg regA) (s.readReg regB)))

end Sys2Proof.Machine
end

