-- ==== Sys2Proof/Machine/Undefined.lean ====
section
/-! DEFINITION. The ten undefined function codes (40_three_register.md R60): the step completes, nothing changes, the
engine stays Running at the same pc and so repeats the same step without end. -/

namespace Sys2Proof.Machine

/-- Undefined function code 5 (R60). -/
def execUndefF5 (s : State) : Result := .next s.stall

/-- Undefined function code 6 (R60). -/
def execUndefF6 (s : State) : Result := .next s.stall

/-- Undefined function code 7 (R60). -/
def execUndefF7 (s : State) : Result := .next s.stall

/-- Undefined function code 9 (R60). -/
def execUndefF9 (s : State) : Result := .next s.stall

/-- Undefined function code 10 (R60). -/
def execUndefF10 (s : State) : Result := .next s.stall

/-- Undefined function code 11 (R60). -/
def execUndefF11 (s : State) : Result := .next s.stall

/-- Undefined function code 12 (R60). -/
def execUndefF12 (s : State) : Result := .next s.stall

/-- Undefined function code 13 (R60). -/
def execUndefF13 (s : State) : Result := .next s.stall

/-- Undefined function code 14 (R60). -/
def execUndefF14 (s : State) : Result := .next s.stall

/-- Undefined function code 15 (R60). -/
def execUndefF15 (s : State) : Result := .next s.stall

end Sys2Proof.Machine
end

