-- ==== Sys2Proof/Machine/Dispatch.lean ====
section
/-! DEFINITION. The dispatch: one meaning per instruction (10_state.md R23, `Execute`). -/

namespace Sys2Proof.Machine

def exec (i : Instr) (s : State) : Host.Outcome State Fault Refusal :=
  match i with
  | .add d a b => Sys2Proof.Machine.execAdd d a b s
  | .sub d a b => Sys2Proof.Machine.execSub d a b s
  | .or d a b => Sys2Proof.Machine.execOr d a b s
  | .and d a b => Sys2Proof.Machine.execAnd d a b s
  | .slt d a b => Sys2Proof.Machine.execSlt d a b s
  | .undefF5 => Sys2Proof.Machine.execUndefF5 s
  | .undefF6 => Sys2Proof.Machine.execUndefF6 s
  | .undefF7 => Sys2Proof.Machine.execUndefF7 s
  | .jr a => Sys2Proof.Machine.execJr a s
  | .undefF9 => Sys2Proof.Machine.execUndefF9 s
  | .undefF10 => Sys2Proof.Machine.execUndefF10 s
  | .undefF11 => Sys2Proof.Machine.execUndefF11 s
  | .undefF12 => Sys2Proof.Machine.execUndefF12 s
  | .undefF13 => Sys2Proof.Machine.execUndefF13 s
  | .undefF14 => Sys2Proof.Machine.execUndefF14 s
  | .undefF15 => Sys2Proof.Machine.execUndefF15 s
  | .addi b a imm => Sys2Proof.Machine.execAddi b a imm s
  | .j target => Sys2Proof.Machine.execJ target s
  | .jal target => Sys2Proof.Machine.execJal target s
  | .lw b a imm => Sys2Proof.Machine.execLw b a imm s
  | .sw b a imm => Sys2Proof.Machine.execSw b a imm s
  | .jeq a b imm => Sys2Proof.Machine.execJeq a b imm s
  | .slti b a imm => Sys2Proof.Machine.execSlti b a imm s

end Sys2Proof.Machine
end

