-- ==== Sys2Proof/Machine/Step.lean ====
section
/-! DEFINITION. The one step function (10_state.md R23). -/

namespace Sys2Proof.Machine

/-- One step (R23): while Running, fetch from the cell `pc mod 8192`, decode, execute. The last line of R23, `x[0] <- 0`,
is the register operations' own rule here (R13, R24). A Halted engine performs no fetch (R15). -/
def step (s : State) : Host.Outcome State Fault Refusal :=
  match s.run with
  | .running => exec (decode s.fetchWord) s
  | .halted => .next s.idle

/-- The state with the instruction whose bits are `w` in the cell that the next step fetches, and the engine Running, as
a fetch needs. It stands for LOAD (log entry 9). -/
def State.withFetchWord (s : State) (nbits w : Nat) : State :=
  { s.memWrite s.pc (tableWord nbits w) with run := .running }

end Sys2Proof.Machine
end

