-- ==== Sys2Proof/Machine/Interfaces.lean ====
section
/-! DEFINITION. The block with its parameters as arguments (00_scope.md R8) and its interfaces at transaction level (R6):
CONFIG and LOAD (`configure`, `boot`), RUN (`drive`, `Drives`, `runSequence`), OBSERVE (`observe`). EVENT is the field
`events` of State. `exec` and `step` are `execIn` and `stepIn` of the constant `Config.cache` (log entry 1). -/

namespace Sys2Proof.Machine

/-- Executing an instruction in the machine with a configuration. Only LoadWord and StoreWord read the configuration (R20,
R40). -/
def execIn (cfg : CacheConfig) (i : Instr) (s : State) : Result :=
  match i with
  | .lw regB regA imm => loadWordIn cfg regB regA imm s
  | .sw regB regA imm => storeWordIn cfg regB regA imm s
  | .add .. | .sub .. | .or .. | .and .. | .slt .. | .jr .. | .addi .. | .slti .. | .j .. | .jal .. | .jeq ..
  | .undefF5 | .undefF6 | .undefF7 | .undefF9 | .undefF10 | .undefF11 | .undefF12 | .undefF13 | .undefF14
  | .undefF15 => exec i s

/-- One step (10_state.md R23) of the machine with a configuration. -/
def stepIn (cfg : CacheConfig) (s : State) : Result :=
  match s.run with
  | .running => execIn cfg (decode s.fetchWord) s
  | .halted => .next s.idle

/-- The machine with a configuration, right after reset with nothing listed in memory (log entry 3). -/
def blockIn (cfg : CacheConfig) : Host.Core where
  State := State
  Fault := Fault
  Refusal := Refusal
  step := stepIn cfg
  reset := startState cfg []

/-- CONFIG (R106 step 1): the configuration that a list of levels gives, or the configuration error that forbids the run
(R74, R76, R98). An illegal list gives no configuration, and without one there is no start state and no step. -/
def configure (levels : List LevelShape) : Except Refusal CacheConfig :=
  match levels with
  | [] => .ok .absent
  | [s1] => if h1 : shapeLegal s1 = true then .ok (.oneLevel ⟨s1, h1⟩) else .error (.illegalLevelShape .L1)
  | [s1, s2] =>
    if h1 : shapeLegal s1 = true then
      if h2 : shapeLegal s2 = true then .ok (.twoLevels ⟨s1, h1⟩ ⟨s2, h2⟩) else .error (.illegalLevelShape .L2)
    else .error (.illegalLevelShape .L1)
  | more => .error (.illegalLevelCount more.length)

/-- CONFIG, reset and LOAD (R106): the configuration, fixed from then on, and the start state of the run. The image is
total, so one with a gap or with an address of 8192 or more cannot be expressed (93_implementation_defined.md U5). -/
def boot (levels : List LevelShape) (image : CellAddr → Word) : Except Refusal (CacheConfig × State) :=
  match configure levels with
  | .ok cfg => .ok (cfg, startState cfg (Memory.ofImage image))
  | .error why => .error why

/-- The run as the sequence of states that R108 defines: `runSequence cfg s n` is the state after `n` steps from `s`, and
nothing where the run was over before. -/
def runSequence (cfg : CacheConfig) (s : State) : Nat → Option State
  | 0 => some s
  | n + 1 =>
    match runSequence cfg s n with
    | none => none
    | some t =>
      match t.run with
      | .halted => none
      | .running =>
        match stepIn cfg t with
        | .next u => some u
        | .fault f => nomatch f
        | .refused _ => none

/-- How a drive of the engine ends (R109). -/
inductive RunEnd where
  /-- The run is over: the state is the final state (R108). -/
  | halted (final : State)
  /-- The bound cut the run off: the state is a Running state and not a final one (R109). -/
  | outOfFuel (last : State)
  /-- A step was refused. No step of this machine is. -/
  | refused (why : Refusal)
  deriving DecidableEq, Repr

/-- RUN under a step bound (R108, R109): steps while the run state is Running. The bound is the driver's and no part of
the block's state. -/
def drive (cfg : CacheConfig) : Nat → State → RunEnd
  | 0, s =>
    match s.run with
    | .halted => .halted s
    | .running => .outOfFuel s
  | fuel + 1, s =>
    match s.run with
    | .halted => .halted s
    | .running =>
      match stepIn cfg s with
      | .next s' => drive cfg fuel s'
      | .fault f => nomatch f
      | .refused why => .refused why

/-- RUN under any `FUEL`, unbounded where none is given (R8, R109): `Drives cfg s e fuel` says that the drive from `s` ends
as `e`. An unbounded drive ends where some number of steps ends it, never for want of fuel; one that no number of steps
ends has no end, and is then an infinite run (R108). -/
def Drives (cfg : CacheConfig) (s : State) (e : RunEnd) (fuel : Fuel := Config.fuel) : Prop :=
  match fuel with
  | .steps bound => drive cfg bound s = e
  | .unbounded => (∃ bound, drive cfg bound s = e) ∧ ∀ last, e ≠ .outOfFuel last

/-- An infinite run (R108): after every number of steps there is a state, and it is a Running one. -/
def RunsForever (cfg : CacheConfig) (s : State) : Prop :=
  ∀ n, ∃ t, runSequence cfg s n = some t ∧ t.run = .running

/-- What OBSERVE carries (R110). The cache directory is not among it. -/
structure Observation where
  run : RunState
  pc : Word
  registers : Vector Word 8
  memory : Memory
  deriving DecidableEq, Repr

/-- OBSERVE (R110): the run state, the 16-bit pc, the eight register values and the whole memory array. -/
def observe (s : State) : Observation :=
  ⟨s.run, s.pc, Vector.ofFn fun i => s.readReg (BitVec.ofFin i), s.mem⟩

end Sys2Proof.Machine
end

