-- ==== Sys2Proof/Safety.lean ====
section
/-! DEFINITION. What holds of every state a run reaches, and the terms in which statements speak of a step's effect. -/

namespace Sys2Proof.Machine

/-- The tags of a row, front first. -/
def rowTags (row : Row) : List Nat :=
  row.filterMap fun line =>
    match line with
    | .empty => none
    | .tag t => some t

/-- The row invariants (a), (b) and (c) of R89, and the bound on tags of R77: exactly `associativity` lines, all `EMPTY`
lines before all tag lines, no tag twice, no tag above the last address's. -/
def rowWf (sh : LevelShape) (row : Row) : Bool :=
  decide (row.length = sh.associativity) &&
    decide (row = List.replicate (sh.associativity - (rowTags row).length) .empty ++ (rowTags row).map .tag) &&
    decide (rowTags row).Nodup &&
    (rowTags row).all fun t => decide (t ≤ 8191 / sh.blockSize / rowCount sh)

/-- The directory of a level of a legal shape (R76): as many rows as the shape gives (R77), each in order (R89). -/
def directoryWf (sh : LevelShape) (dir : Directory) : Bool :=
  shapeLegal sh && decide (dir.length = rowCount sh) && dir.all (rowWf sh)

/-- The directory of every configured level is in order, and a level that is not configured has no row (R88). -/
def directoriesWf (cfg : CacheConfig) (d : Directories) : Bool :=
  match cfg with
  | .absent => decide (d.l1 = []) && decide (d.l2 = [])
  | .oneLevel s1 => directoryWf s1.shape d.l1 && decide (d.l2 = [])
  | .twoLevels s1 s2 => directoryWf s1.shape d.l1 && directoryWf s2.shape d.l2

/-- An event names a configured level, and its row is the one R79 gives its address there (R86). -/
def eventWf (cfg : CacheConfig) (e : AccessEvent) : Bool :=
  match levelShape? cfg e.level with
  | none => false
  | some sh => decide (e.row = rowIndex sh e.address)

/-- The invariant of the machine with a configuration: the memory list is in canonical form, slot 0 of the register file
holds 0 (R13), the directories are in order (R76, R77, R89) and every event in the history is one that its level could
emit (R86). -/
abbrev State.Inv (s : State) (cfg : CacheConfig) : Prop :=
  s.mem.wf = true ∧ s.regs[0] = 0 ∧ directoriesWf cfg s.caches = true ∧ s.events.all (eventWf cfg) = true

/-- The tags that a level's accesses presented to one row, oldest first, read off the event history: a level emits
exactly one event for every access it evaluates (R84). -/
def accessedTags (sh : LevelShape) (name : LevelName) (events : List AccessEvent) (row : Nat) : List Nat :=
  events.filterMap fun e =>
    if e.level = name ∧ rowIndex sh e.address = row then some (tagOf sh e.address) else none

/-- True LRU, said without any update rule (R89 (d)): the `associativity` tags most recently accessed, each once, the
least recent first, with `EMPTY` lines in front where fewer tags were accessed. -/
def lruRow (associativity : Nat) (tags : List Nat) : Row :=
  let recent := tags.reverse.eraseDups.take associativity
  List.replicate (associativity - recent.length) .empty ++ recent.reverse.map .tag

/-- Every row of a level's directory is the LRU row of the accesses that the history records for it. -/
def directoryFollowsHistory (sh : LevelShape) (dir : Directory) (name : LevelName) (events : List AccessEvent) : Prop :=
  ∀ r, r < dir.length → dir[r]? = some (lruRow sh.associativity (accessedTags sh name events r))

/-- Every configured level's directory is the true LRU directory of the event history. -/
def State.FollowsHistory (s : State) (cfg : CacheConfig) : Prop :=
  ∀ name sh, levelShape? cfg name = some sh → directoryFollowsHistory sh (s.caches.level name) name s.events

/-- Two states agree on everything a program can see: registers, pc, run state and memory (R90). -/
def SameProgramView (s t : State) : Prop :=
  s.regs = t.regs ∧ s.pc = t.pc ∧ s.run = t.run ∧ s.mem = t.mem

/-- From `s` to `t` register `r` takes the value `v`, where it is not register 0 (R13), and every other register, as an
instruction reads it, keeps its value. -/
def WritesRegister (s t : State) (r : RegIdx) (v : Word) : Prop :=
  ∀ q, t.readReg q = if q = r ∧ r ≠ 0 then v else s.readReg q

/-- From `s` to `t` every register keeps its value. -/
def KeepsRegisters (s t : State) : Prop := t.regs = s.regs

/-- From `s` to `t` the memory, byte for byte, and with it every cell keeps its contents. -/
def KeepsMemory (s t : State) : Prop :=
  t.mem = s.mem ∧ (∀ key, t.mem.readByte key = s.mem.readByte key) ∧ ∀ a, t.loadCell a = s.loadCell a

/-- From `s` to `t` the cache directories and the event stream stay as they are. -/
def KeepsCaches (s t : State) : Prop := t.caches = s.caches ∧ t.events = s.events

/-- From `s` to `t` the cache controller reacted to one access as R85 says under the configuration, and its events joined
the stream (R87). -/
def PresentsAccess (cfg : CacheConfig) (s t : State) (addr : CellAddr) (isStore : Bool) : Prop :=
  t.caches = (cacheAccess cfg s.caches addr s.pc isStore).1 ∧
    t.events = s.events ++ (cacheAccess cfg s.caches addr s.pc isStore).2

/-- From `s` to `t` the pc advanced to the sequential successor, modulo 65536 (R63). -/
def Advances (s t : State) : Prop := t.pc.toNat = (s.pc.toNat + 1) % 65536

/-- From `s` to `t` the cell `addr` alone was stored to, and it took register `b`: it reads as the register where the
memory list was in canonical form, and every other cell, and every byte key outside its two (the model's layout, log
entry 4), reads as before. -/
def StoresCell (s t : State) (b : RegIdx) (addr : CellAddr) : Prop :=
  (s.mem.wf = true → t.loadCell addr = s.readReg b) ∧
    (∀ c, c ≠ addr → t.loadCell c = s.loadCell c) ∧
    ∀ key, key ≠ 2 * addr.toNat → key ≠ 2 * addr.toNat + 1 → t.mem.readByte key = s.mem.readByte key

/-- From `s` to `t` a LoadWord of the cell `addr` into register `b` had its whole effect (R71). -/
def LoadEffect (cfg : CacheConfig) (s t : State) (b : RegIdx) (addr : CellAddr) : Prop :=
  WritesRegister s t b (s.loadCell addr) ∧ PresentsAccess cfg s t addr false ∧ Advances s t ∧ t.run = s.run ∧
    KeepsMemory s t

/-- From `s` to `t` a StoreWord of register `b` to the cell `addr` had its whole effect (R72). -/
def StoreEffect (cfg : CacheConfig) (s t : State) (b : RegIdx) (addr : CellAddr) : Prop :=
  StoresCell s t b addr ∧ PresentsAccess cfg s t addr true ∧ Advances s t ∧ t.run = s.run ∧ KeepsRegisters s t

end Sys2Proof.Machine
end

