-- ==== Sys2Proof/Certificates/Slice0/Obligations.lean ====
section
/-! DEFINITION. The statements for the provers, from the numbered rules of spec/. A statement about steps or runs holds of
`exec`, `step` and `Sys2Proof.core`, the machine with the constant `Config.cache` (log entries 1 and 2), and of `execIn`,
`stepIn` and `blockIn` with every configuration `cfg` (R8); a `CacheConfig` is a legal one by its type (R76). -/

open Sys2Proof Sys2Proof.Machine

/-! ## Encoding (30_encoding.md) -/

/-- Words written out in 95_test_vectors.md, section 2.1 (E1 to E22), decode to the instructions given there. -/
def Obligations.DecodeReadsSpecVectors : Prop :=
  decode 0x0000 = .add 0 0 0 ∧ decode 0x0530 = .add 3 1 2 ∧ decode 0x0531 = .sub 3 1 2 ∧
  decode 0x0532 = .or 3 1 2 ∧ decode 0x0533 = .and 3 1 2 ∧ decode 0x0534 = .slt 3 1 2 ∧
  decode 0x1C08 = .jr 7 ∧ decode 0x0758 = .jr 1 ∧ decode 0x2085 = .addi 1 0 5 ∧
  decode 0x24FF = .addi 1 1 0xFFFF ∧ decode 0x4002 = .j 2 ∧ decode 0x7FFF = .jal 8191 ∧
  decode 0x8503 = .lw 2 1 3 ∧ decode 0xA17F = .sw 2 0 0xFFFF ∧ decode 0xC57D = .jeq 1 2 0xFFFD ∧
  decode 0xE540 = .slti 2 1 0xFFC0 ∧ decode 0x0005 = .undefF5 ∧ decode 0x0539 = .undefF9 ∧
  decode 0x1FFF = .undefF15

/-- Decoding the word of a well-formed instruction gives the instruction back, for every instruction and every operand
value (R43, R46, R47, R50). -/
def Obligations.DecodeEncodeRoundTrip : Prop :=
  ∀ i : Instr, i.wf = true → decode (encode i) = i

/-- Encoding what a word decodes to gives the word back, but for the bits the operation ignores (R49, R50): regB and regDest
of JumpRegister come back as 0, as R52 and R64 say; all three register fields of an undefined function code come back as 0,
for which no text gives a value: that is the model's choice (log entry 12). -/
def Obligations.EncodeDecodeRestoresUsedBits : Prop :=
  ∀ w : Word, encode (decode w) =
    w &&& (match decode w with
      | .jr _ => 0x1C0F#16
      | i => if i.isUndefined = true then 0x000F#16 else 0xFFFF#16)

/-- The decoder answers a well-formed instruction for every word: its immediates are in their ranges (R44, R45, R50). -/
def Obligations.DecodeYieldsWellFormed : Prop :=
  ∀ w : Word, (decode w).wf = true

/-- Every word matches exactly one row of the opcode table, and that row is the decoded instruction's (30_encoding.md,
opening; R46, R47). -/
def Obligations.EveryWordMatchesItsOneRow : Prop :=
  ∀ w : Word, opcodeTable.filter (fun r => w &&& r.mask = r.bits) = [(decode w).row]

/-- The undefined instructions are exactly the words of opcode 0 with one of the ten function codes (R46, R48). -/
def Obligations.UndefinedExactlyTheTenCodes : Prop :=
  ∀ w : Word, (decode w).isUndefined = true ↔
    w.toNat / 8192 = 0 ∧ w.toNat % 16 ∈ [5, 6, 7, 9, 10, 11, 12, 13, 14, 15]

/-- R44: imm7 is a 7-bit two's-complement number, widened to 16 bits by OR with 0xFF80 where bit 6 is set; the five RRI
instructions all take this value. -/
def Obligations.ImmediateIsSignExtended : Prop :=
  (∀ v : BitVec 7,
    (sext7 v).toInt = v.toInt ∧ -64 ≤ (sext7 v).toInt ∧ (sext7 v).toInt ≤ 63 ∧
    (sext7 v).toNat = if 64 ≤ v.toNat then v.toNat ||| 0xFF80 else v.toNat) ∧
  ∀ (a b : RegIdx) (v : BitVec 7),
    decode (1#3 ++ a ++ b ++ v) = .addi b a (sext7 v) ∧ decode (4#3 ++ a ++ b ++ v) = .lw b a (sext7 v) ∧
    decode (5#3 ++ a ++ b ++ v) = .sw b a (sext7 v) ∧ decode (6#3 ++ a ++ b ++ v) = .jeq a b (sext7 v) ∧
    decode (7#3 ++ a ++ b ++ v) = .slti b a (sext7 v)

/-- R45: imm13 is an absolute cell address 0..8191, used as it stands. -/
def Obligations.TargetIsZeroExtended : Prop :=
  ∀ v : BitVec 13,
    (zext13 v).toNat = v.toNat ∧ (zext13 v).toNat ≤ 8191 ∧
    decode (2#3 ++ v) = .j (zext13 v) ∧ decode (3#3 ++ v) = .jal (zext13 v)

/-! ## What each instruction does: its encoding, its next state, its frame -/

/-- R55. Add, for every operand and every state: it completes, with the sum modulo 65536 in regDest (lost in register
0) and the pc advanced, and changes nothing else. -/
def Obligations.AddWritesWrappedSum : Prop :=
  ∀ d a b : RegIdx,
    decode (0#3 ++ a ++ b ++ d ++ 0#4) = .add d a b ∧
    ∀ s : State, ∃ t, exec (.add d a b) s = .next t ∧
      WritesRegister s t d (BitVec.ofNat 16 ((s.readReg a).toNat + (s.readReg b).toNat)) ∧
      Advances s t ∧ t.run = s.run ∧ KeepsMemory s t ∧ KeepsCaches s t

/-- R56. Sub: regA minus regB, 65536 added first where regA is below regB. -/
def Obligations.SubWritesWrappedDifference : Prop :=
  ∀ d a b : RegIdx,
    decode (0#3 ++ a ++ b ++ d ++ 1#4) = .sub d a b ∧
    ∀ s : State, ∃ t, exec (.sub d a b) s = .next t ∧
      WritesRegister s t d (BitVec.ofNat 16
        (if (s.readReg b).toNat ≤ (s.readReg a).toNat then (s.readReg a).toNat - (s.readReg b).toNat
         else (s.readReg a).toNat + 65536 - (s.readReg b).toNat)) ∧
      Advances s t ∧ t.run = s.run ∧ KeepsMemory s t ∧ KeepsCaches s t

/-- R57. Or: bitwise on 16 bits. -/
def Obligations.OrWritesBitwiseOr : Prop :=
  ∀ d a b : RegIdx,
    decode (0#3 ++ a ++ b ++ d ++ 2#4) = .or d a b ∧
    ∀ s : State, ∃ t v, exec (.or d a b) s = .next t ∧
      (∀ i < 16, v.getLsbD i = ((s.readReg a).getLsbD i || (s.readReg b).getLsbD i)) ∧ WritesRegister s t d v ∧
      Advances s t ∧ t.run = s.run ∧ KeepsMemory s t ∧ KeepsCaches s t

/-- R58. And: bitwise on 16 bits. -/
def Obligations.AndWritesBitwiseAnd : Prop :=
  ∀ d a b : RegIdx,
    decode (0#3 ++ a ++ b ++ d ++ 3#4) = .and d a b ∧
    ∀ s : State, ∃ t v, exec (.and d a b) s = .next t ∧
      (∀ i < 16, v.getLsbD i = ((s.readReg a).getLsbD i && (s.readReg b).getLsbD i)) ∧ WritesRegister s t d v ∧
      Advances s t ∧ t.run = s.run ∧ KeepsMemory s t ∧ KeepsCaches s t

/-- R59. SetLessThan: 1 where regA is below regB as unsigned 16-bit numbers, else 0. -/
def Obligations.SetLessThanComparesUnsigned : Prop :=
  ∀ d a b : RegIdx,
    decode (0#3 ++ a ++ b ++ d ++ 4#4) = .slt d a b ∧
    ∀ s : State, ∃ t, exec (.slt d a b) s = .next t ∧
      WritesRegister s t d (if (s.readReg a).toNat < (s.readReg b).toNat then 1 else 0) ∧
      Advances s t ∧ t.run = s.run ∧ KeepsMemory s t ∧ KeepsCaches s t

/-- R61. AddImmediate: the sum with the sign-extended immediate, modulo 65536, in regB. -/
def Obligations.AddImmediateWritesWrappedSum : Prop :=
  ∀ (a b : RegIdx) (v : BitVec 7),
    decode (1#3 ++ a ++ b ++ v) = .addi b a (sext7 v) ∧
    ∀ s : State, ∃ t, exec (.addi b a (sext7 v)) s = .next t ∧
      WritesRegister s t b (BitVec.ofNat 16 ((s.readReg a).toNat + (sext7 v).toNat)) ∧
      Advances s t ∧ t.run = s.run ∧ KeepsMemory s t ∧ KeepsCaches s t

/-- R62. SetLessThanImmediate: the immediate is sign-extended first and then compared as an unsigned number. -/
def Obligations.SetLessThanImmediateComparesUnsigned : Prop :=
  ∀ (a b : RegIdx) (v : BitVec 7),
    decode (7#3 ++ a ++ b ++ v) = .slti b a (sext7 v) ∧
    ∀ s : State, ∃ t, exec (.slti b a (sext7 v)) s = .next t ∧
      WritesRegister s t b (if (s.readReg a).toNat < (sext7 v).toNat then 1 else 0) ∧
      Advances s t ∧ t.run = s.run ∧ KeepsMemory s t ∧ KeepsCaches s t

/-- The ten undefined function codes (R60): whatever the register fields hold, a Running engine that meets one stays in
its state, the pc included, after any number of steps: it stalls there for ever, never Halted. That the stall is an
enabled step that answers the state unchanged (the clauses on `exec` and `execIn`) is the model's choice (log entry 8): R60
says "A model may represent the stall either as an enabled step that returns the state unchanged or as an infinite
execution". -/
def Obligations.UndefinedCodesStall : Prop :=
  (∀ a b d : RegIdx,
    decode (0#3 ++ a ++ b ++ d ++ 5#4) = .undefF5 ∧ decode (0#3 ++ a ++ b ++ d ++ 6#4) = .undefF6 ∧
    decode (0#3 ++ a ++ b ++ d ++ 7#4) = .undefF7 ∧ decode (0#3 ++ a ++ b ++ d ++ 9#4) = .undefF9 ∧
    decode (0#3 ++ a ++ b ++ d ++ 10#4) = .undefF10 ∧ decode (0#3 ++ a ++ b ++ d ++ 11#4) = .undefF11 ∧
    decode (0#3 ++ a ++ b ++ d ++ 12#4) = .undefF12 ∧ decode (0#3 ++ a ++ b ++ d ++ 13#4) = .undefF13 ∧
    decode (0#3 ++ a ++ b ++ d ++ 14#4) = .undefF14 ∧ decode (0#3 ++ a ++ b ++ d ++ 15#4) = .undefF15) ∧
  (∀ s : State,
    exec .undefF5 s = .next s ∧ exec .undefF6 s = .next s ∧ exec .undefF7 s = .next s ∧
    exec .undefF9 s = .next s ∧ exec .undefF10 s = .next s ∧ exec .undefF11 s = .next s ∧
    exec .undefF12 s = .next s ∧ exec .undefF13 s = .next s ∧ exec .undefF14 s = .next s ∧
    exec .undefF15 s = .next s) ∧
  ∀ (cfg : CacheConfig) (s : State) (n : Nat), s.run = .running → (decode s.fetchWord).isUndefined = true →
    Sys2Proof.core.run n s = .next s ∧ (blockIn cfg).run n s = .next s ∧ drive cfg n s = .outOfFuel s ∧
    RunsForever cfg s

/-- R64. JumpRegister: the whole Word of regA goes into the pc; regB and regDest may hold anything. -/
def Obligations.JumpRegisterLoadsPc : Prop :=
  ∀ a x y : RegIdx,
    decode (0#3 ++ a ++ x ++ y ++ 8#4) = .jr a ∧
    ∀ s : State, ∃ t, exec (.jr a) s = .next t ∧
      t.pc = s.readReg a ∧ t.run = s.run ∧ KeepsRegisters s t ∧ KeepsMemory s t ∧ KeepsCaches s t

/-- R65. Jump: Halted, the pc kept, where the zero-extended target equals the 16-bit pc; else taken. -/
def Obligations.JumpHaltsOrTransfers : Prop :=
  ∀ v : BitVec 13,
    decode (2#3 ++ v) = .j (zext13 v) ∧
    ∀ s : State, ∃ t, exec (.j (zext13 v)) s = .next t ∧
      (if v.toNat = s.pc.toNat then t.run = .halted ∧ t.pc = s.pc else t.run = s.run ∧ t.pc.toNat = v.toNat) ∧
      KeepsRegisters s t ∧ KeepsMemory s t ∧ KeepsCaches s t

/-- R66. JumpAndLink: register 7 takes the unmasked cur + 1, the pc the target; it never changes the run state. -/
def Obligations.JumpAndLinkLinksRegisterSeven : Prop :=
  ∀ v : BitVec 13,
    decode (3#3 ++ v) = .jal (zext13 v) ∧
    ∀ s : State, ∃ t, exec (.jal (zext13 v)) s = .next t ∧
      WritesRegister s t 7 (BitVec.ofNat 16 (s.pc.toNat + 1)) ∧
      t.pc.toNat = v.toNat ∧ t.run = s.run ∧ KeepsMemory s t ∧ KeepsCaches s t

/-- R67. JumpIfEqual: relative to cur + 1, modulo 65536, where the registers are equal on all 16 bits. -/
def Obligations.JumpIfEqualBranches : Prop :=
  ∀ (a b : RegIdx) (v : BitVec 7),
    decode (6#3 ++ a ++ b ++ v) = .jeq a b (sext7 v) ∧
    ∀ s : State, ∃ t, exec (.jeq a b (sext7 v)) s = .next t ∧
      t.pc.toNat = (if s.readReg a = s.readReg b then (s.pc.toNat + 1 + (sext7 v).toNat) % 65536
        else (s.pc.toNat + 1) % 65536) ∧
      t.run = s.run ∧ KeepsRegisters s t ∧ KeepsMemory s t ∧ KeepsCaches s t

/-- LoadWord (R71), with R70's address. The cache controller is presented the masked address, then the whole cell goes to
regB (lost in register 0); memory stays as it is. So in the machine of `exec`, whose configuration is the model's choice
(log entries 1 and 2), and in that of every configuration. That the events stand in the state is the model's choice (log
entry 5). -/
def Obligations.LoadWordReadsCell : Prop :=
  ∀ (a b : RegIdx) (v : BitVec 7),
    decode (4#3 ++ a ++ b ++ v) = .lw b a (sext7 v) ∧
    ∀ s : State,
      (effAddr s a (sext7 v)).toNat = ((s.readReg a).toNat + (sext7 v).toNat) % 65536 % 8192 ∧
      (∃ t, exec (.lw b a (sext7 v)) s = .next t ∧ LoadEffect Config.cache s t b (effAddr s a (sext7 v))) ∧
      ∀ cfg, ∃ t, execIn cfg (.lw b a (sext7 v)) s = .next t ∧ LoadEffect cfg s t b (effAddr s a (sext7 v))

/-- StoreWord (R72), with R70's address. The cache controller is presented the masked address, then the whole register regB
goes to that cell. Every other cell, and every byte key outside the two of that cell, reads as before, in any state; the
cell itself reads as the register in every state whose memory list is in canonical form. The byte keys are the model's
layout (log entry 4), the events in the state its choice (log entry 5), and so is the configuration of `exec` (log entries
1 and 2); the last clause is for every configuration. -/
def Obligations.StoreWordWritesCell : Prop :=
  ∀ (a b : RegIdx) (v : BitVec 7),
    decode (5#3 ++ a ++ b ++ v) = .sw b a (sext7 v) ∧
    ∀ s : State,
      (effAddr s a (sext7 v)).toNat = ((s.readReg a).toNat + (sext7 v).toNat) % 65536 % 8192 ∧
      (∃ t, exec (.sw b a (sext7 v)) s = .next t ∧
        ∀ addr, addr = effAddr s a (sext7 v) → StoreEffect Config.cache s t b addr) ∧
      ∀ cfg, ∃ t, execIn cfg (.sw b a (sext7 v)) s = .next t ∧
        ∀ addr, addr = effAddr s a (sext7 v) → StoreEffect cfg s t b addr

/-! ## The step -/

/-- A Running engine executes the instruction decoded from the cell pc mod 8192 (R14, R23). The last line of R23's Step,
`x[0] <- 0`, is not a part of the step here but of the operations that read and write registers, so that the step adds
nothing around the instruction: that is the model's choice (log entry 7), which R13 and R24 leave to it. -/
def Obligations.StepRunsDecodedInstruction : Prop :=
  ∀ (s : State) (i : Instr), s.run = .running →
    decode (s.mem.readCell (BitVec.ofNat 13 (s.pc.toNat % 8192))) = i →
    i.wf = true ∧ step s = exec i s ∧ ∀ cfg, stepIn cfg s = execIn cfg i s

/-- No instruction and no step faults or is refused, in any state (R92, R93; log entry 16, DEDUCED). That a Halted engine,
for which R15 and R23 give no step, answers a next state too is the model's choice (log entry 6). -/
def Obligations.StepAlwaysAnswersNext : Prop :=
  (∀ (i : Instr) (s : State), ∃ t, exec i s = .next t) ∧ (∀ s : State, ∃ t, step s = .next t) ∧
  ∀ cfg, (∀ (i : Instr) (s : State), ∃ t, execIn cfg i s = .next t) ∧ ∀ s : State, ∃ t, stepIn cfg s = .next t

/-- The pc after a step, for every instruction (the table of R63). -/
def Obligations.ProgramCounterTable : Prop :=
  ∀ (cfg : CacheConfig) (s t : State), s.run = .running → (step s = .next t ∨ stepIn cfg s = .next t) →
    t.pc = match decode s.fetchWord with
      | .jr a => s.readReg a
      | .j target => target
      | .jal target => target
      | .jeq a b imm => if s.readReg a = s.readReg b then s.pc + 1 + imm else s.pc + 1
      | i => if i.isUndefined = true then s.pc else s.pc + 1

/-- Register slot 0 holds 0 after every instruction that found 0 there, and every register read of index 0 gives 0 in
any state (R13). That the register operations, and no end of step, see to it is the model's choice (log entry 7). -/
def Obligations.RegisterZeroStaysZero : Prop :=
  ∀ (cfg : CacheConfig) (i : Instr) (s t : State), s.regs[0] = 0 → (exec i s = .next t ∨ execIn cfg i s = .next t) →
    t.regs[0] = 0 ∧ t.readReg 0 = 0

/-- The run state becomes Halted in exactly one case: a Jump whose target equals the pc it was fetched with (R65,
R68). -/
def Obligations.HaltsExactlyOnSelfJump : Prop :=
  ∀ (cfg : CacheConfig) (s t : State), s.run = .running → (step s = .next t ∨ stepIn cfg s = .next t) →
    (t.run = .halted ↔ decode s.fetchWord = .j s.pc)

/-- Halted is terminal: no number of steps changes anything (R15, R105). That a Halted engine answers its own state is
the model's choice (log entry 6). -/
def Obligations.HaltedIsTerminal : Prop :=
  ∀ (cfg : CacheConfig) (s : State) (n : Nat), s.run = .halted →
    Sys2Proof.core.run n s = .next s ∧ (blockIn cfg).run n s = .next s

/-- The one-instruction loops of R68 never halt and never leave: JumpAndLink to itself, JumpRegister to itself,
JumpIfEqual with equal registers and displacement -1: the run from there is infinite (R68, R108, R113). -/
def Obligations.SelfLoopsRunForever : Prop :=
  ∀ (cfg : CacheConfig) (s : State) (n : Nat), s.run = .running →
    (decode s.fetchWord = .jal s.pc ∨ (∃ a, decode s.fetchWord = .jr a ∧ s.readReg a = s.pc) ∨
      ∃ a b, decode s.fetchWord = .jeq a b 0xFFFF ∧ s.readReg a = s.readReg b) →
    (∃ t : State, Sys2Proof.core.run n s = .next t ∧ (blockIn cfg).run n s = .next t ∧
      t.run = .running ∧ t.pc = s.pc) ∧
    RunsForever cfg s

/-- A Jump to its own cell fetched with a pc of 8192 or more does not halt at once: it jumps to the cell's number and
halts there one step later (R65, R113 (d)). -/
def Obligations.AliasedSelfJumpHaltsOneStepLater : Prop :=
  ∀ (cfg : CacheConfig) (s : State) (target : Word), s.run = .running → 8192 ≤ s.pc.toNat → decode s.fetchWord = .j target →
    target.toNat = s.pc.toNat % 8192 →
    ∃ t u : State, step s = .next t ∧ stepIn cfg s = .next t ∧ t.run = .running ∧ t.pc = target ∧
      step t = .next u ∧ stepIn cfg t = .next u ∧ u.run = .halted ∧ u.pc = target

/-! ## Memory -/

/-- R28: an access at a and at a + 8192 k reaches the same cell. -/
def Obligations.AddressesWrapAt8192 : Prop :=
  ∀ (s : State) (a : Word) (k : Nat) (v : Word),
    s.memRead (a + BitVec.ofNat 16 (8192 * k)) = s.memRead a ∧
    s.memWrite (a + BitVec.ofNat 16 (8192 * k)) v = s.memWrite a v

/-- Of all instructions StoreWord alone writes memory, and it writes the one cell it addresses (R26, R32): a cell that
reads differently after a step is the cell of the StoreWord executed. -/
def Obligations.OnlyStoreWordWritesMemory : Prop :=
  ∀ (cfg : CacheConfig) (s t : State) (c : CellAddr), (step s = .next t ∨ stepIn cfg s = .next t) →
    t.loadCell c ≠ s.loadCell c →
    s.run = .running ∧ ∃ b a imm, decode s.fetchWord = .sw b a imm ∧ c = effAddr s a imm

/-- A store into the cell of the next instruction is what the next step executes (R38). The premise on the memory list is
the model's own (log entry 4). -/
def Obligations.StoreIsVisibleToNextFetch : Prop :=
  ∀ (s : State) (b a : RegIdx) (imm : Word), s.mem.wf = true → s.run = .running →
    decode s.fetchWord = .sw b a imm → effAddr s a imm = cellOf (nextPc s.pc) →
    (∃ t, step s = .next t ∧ t.fetchWord = s.readReg b ∧ step t = exec (decode (s.readReg b)) t) ∧
    ∀ cfg, ∃ t, stepIn cfg s = .next t ∧ t.fetchWord = s.readReg b ∧
      stepIn cfg t = execIn cfg (decode (s.readReg b)) t

/-! ## The cache controller -/

/-- R79: index and tag of an address. Two addresses fall on the same line exactly when they have the same blockId. -/
def Obligations.RowAndTagDetermineBlock : Prop :=
  ∀ (sh : LevelShape) (p q : CellAddr), shapeLegal sh = true →
    blockId sh p = p.toNat / sh.blockSize ∧ rowIndex sh p = blockId sh p % rowCount sh ∧
    tagOf sh p = blockId sh p / rowCount sh ∧ rowIndex sh p < rowCount sh ∧
    blockId sh p = tagOf sh p * rowCount sh + rowIndex sh p ∧
    ((rowIndex sh p = rowIndex sh q ∧ tagOf sh p = tagOf sh q) ↔ blockId sh p = blockId sh q)

/-- R82 and R83: on a hit the line is moved to the end of the row, the lines behind it moving up; on a miss the front
line is removed and the new tag appended. -/
def Obligations.RowUpdateIsLeastRecentlyUsed : Prop :=
  (∀ (front back : Row) (t : Nat), Line.tag t ∉ front →
    updateRow (front ++ Line.tag t :: back) t = front ++ back ++ [.tag t]) ∧
  ∀ (first : Line) (rest : Row) (t : Nat), Line.tag t ∉ first :: rest →
    updateRow (first :: rest) t = rest ++ [.tag t]

/-- R81 and R84: one level's reaction to one access: its event, the row it updates, and every other row untouched. -/
def Obligations.LevelAccessTouchesOneRow : Prop :=
  ∀ (sh : LevelShape) (dir : Directory) (name : LevelName) (addr : CellAddr) (pcv : Word) (isStore : Bool) (row : Row),
    dir[rowIndex sh addr]? = some row →
    levelEvent sh dir name addr pcv isStore =
      { level := name, pc := pcv, address := addr, row := rowIndex sh addr
        status := if isStore = true then .storeWrite
          else if Line.tag (tagOf sh addr) ∈ row then .hit else .miss } ∧
    (levelHits sh dir addr = true ↔ Line.tag (tagOf sh addr) ∈ row) ∧
    (levelAccess sh dir addr).length = dir.length ∧
    (levelAccess sh dir addr)[rowIndex sh addr]? = some (updateRow row (tagOf sh addr)) ∧
    ∀ r, r ≠ rowIndex sh addr → (levelAccess sh dir addr)[r]? = dir[r]?

/-- R85 and R88: L1 is always evaluated; L2 only for a store or for a load that misses L1; without a level nothing
happens. -/
def Obligations.TwoLevelProtocol : Prop :=
  ∀ (s1 s2 : LegalShape) (d : Directories) (addr : CellAddr) (pcv : Word),
    (∀ isStore, cacheAccess .absent d addr pcv isStore = (d, [])) ∧
    (∀ isStore, cacheAccess (.oneLevel s1) d addr pcv isStore =
      (⟨levelAccess s1.shape d.l1 addr, d.l2⟩, [levelEvent s1.shape d.l1 .L1 addr pcv isStore])) ∧
    cacheAccess (.twoLevels s1 s2) d addr pcv true =
      (⟨levelAccess s1.shape d.l1 addr, levelAccess s2.shape d.l2 addr⟩,
        [levelEvent s1.shape d.l1 .L1 addr pcv true, levelEvent s2.shape d.l2 .L2 addr pcv true]) ∧
    (levelHits s1.shape d.l1 addr = false → cacheAccess (.twoLevels s1 s2) d addr pcv false =
      (⟨levelAccess s1.shape d.l1 addr, levelAccess s2.shape d.l2 addr⟩,
        [levelEvent s1.shape d.l1 .L1 addr pcv false, levelEvent s2.shape d.l2 .L2 addr pcv false])) ∧
    (levelHits s1.shape d.l1 addr = true → cacheAccess (.twoLevels s1 s2) d addr pcv false =
      (⟨levelAccess s1.shape d.l1 addr, d.l2⟩, [levelEvent s1.shape d.l1 .L1 addr pcv false]))

/-- The source's test of the policy (R91, S6): accesses to tags A, B, A in a row of one line miss three times; in a row
of two lines the third one hits, whatever other lines the rows held. -/
def Obligations.TagsABAMissThenHit : Prop :=
  ∀ (a b : Nat) (x y : Line), a ≠ b → Line.tag a ∉ [x, y] → Line.tag b ∉ [x, y] →
    (lookupTag [x] a = none ∧ lookupTag (updateRow [x] a) b = none ∧
      lookupTag (updateRow (updateRow [x] a) b) a = none) ∧
    (lookupTag [x, y] a = none ∧ lookupTag (updateRow [x, y] a) b = none ∧
      (lookupTag (updateRow (updateRow [x, y] a) b) a).isSome = true)

/-- Only LoadWord and StoreWord reach the cache controller: any other step leaves every directory and the event stream
as they are (R20, R40, R87). -/
def Obligations.OnlyLoadsAndStoresReachCaches : Prop :=
  ∀ (cfg : CacheConfig) (s t : State), (step s = .next t ∨ stepIn cfg s = .next t) →
    (t.caches ≠ s.caches ∨ t.events ≠ s.events) →
    s.run = .running ∧ ∃ b a imm, decode s.fetchWord = .lw b a imm ∨ decode s.fetchWord = .sw b a imm

/-- The event stream only grows, by at most one event for each configured level, L1's first, and every new event
carries the 16-bit pc of the instruction (R86, R87). That the stream stands in the state, as a history, is the model's
choice (log entry 5). -/
def Obligations.EventsAppendInLevelOrder : Prop :=
  ∀ (cfg : CacheConfig) (s t : State), (step s = .next t ∨ stepIn cfg s = .next t) →
    ∃ emitted, t.events = s.events ++ emitted ∧ (∀ e ∈ emitted, e.pc = s.pc) ∧
      (emitted.map (·.level) = [] ∨ emitted.map (·.level) = [.L1] ∨ emitted.map (·.level) = [.L1, .L2])

/-- The configuration is a constant of the machine and no part of its state (R8, R21 (b)): every step and every run of the
machine of `step` are those of the machine with the constant `Config.cache`, which is the model's choice (log entries 1
and 2), and in the machine with any configuration every step leaves each directory with its number of rows (R77). -/
def Obligations.ConfigurationNeverChanges : Prop :=
  (∀ s : State, step s = stepIn Config.cache s) ∧
  (∀ (n : Nat) (s : State), Sys2Proof.core.run n s = (blockIn Config.cache).run n s) ∧
  ∀ (cfg : CacheConfig) (s t : State), stepIn cfg s = .next t →
    t.caches.l1.length = s.caches.l1.length ∧ t.caches.l2.length = s.caches.l2.length

/-- With no level configured no directory changes and there is no event, at every step of a run, and the run starts
without a row (R88). That every number of steps, also from or through Halted, answers a next state is the model's choice
(log entry 6). -/
def Obligations.NoLevelsNoEvents : Prop :=
  (∀ (s : State) (n : Nat), ∃ t : State, (blockIn .absent).run n s = .next t ∧ t.caches = s.caches ∧
    t.events = s.events) ∧
  ∀ mem, (startState .absent mem).caches = ⟨[], []⟩ ∧ (startState .absent mem).events = []

/-! ## Whole runs -/

/-- The invariant of the machine is kept by every step from every state that has it: canonical memory, slot 0 zero (R13),
directories in order (R77, R89 (a) to (c)), events that their levels could emit (R86). The memory list (log entry 4), the
event history (log entry 5), a Halted engine's step (log entry 6) and slot 0 (log entry 7) are the model's choices. -/
def Obligations.StepKeepsInvariant : Prop :=
  (∀ s t : State, s.Inv Config.cache → step s = .next t → t.Inv Config.cache) ∧
  ∀ (cfg : CacheConfig) (s t : State), s.Inv cfg → stepIn cfg s = .next t → t.Inv cfg

/-- The machine right after reset has the invariant. Its configuration and its memory image are the model's choices (log
entries 2 and 3). -/
def Obligations.ResetHasInvariant : Prop := State.reset.Inv Config.cache

/-- True LRU (R89 (d), R91): from a state with the invariant whose directories are the LRU directories of the event
history, said without any update rule, every step gives such a state again. That the history stands in the state is the
model's choice (log entry 5). -/
def Obligations.DirectoriesFollowHistory : Prop :=
  (∀ s t : State, s.Inv Config.cache → s.FollowsHistory Config.cache → step s = .next t →
    t.FollowsHistory Config.cache) ∧
  ∀ (cfg : CacheConfig) (s t : State), s.Inv cfg → s.FollowsHistory cfg → stepIn cfg s = .next t → t.FollowsHistory cfg

/-- The cache controller is transparent (R90): two machines of any two configurations, in states that agree on registers,
pc, run state and memory, whatever their directories and event streams, agree on them after any number of steps; the
machine of `step` agrees with them. That a Halted machine goes on answering its own state is the model's choice (log
entry 6). -/
def Obligations.CachesAreTransparent : Prop :=
  ∀ (c d : CacheConfig) (s t : State) (n : Nat), SameProgramView s t →
    ∃ s' t' u : State, (blockIn c).run n s = .next s' ∧ (blockIn d).run n t = .next t' ∧
      Sys2Proof.core.run n s = .next u ∧ SameProgramView s' t' ∧ SameProgramView u t'

/-- A run that halts under a step bound ends in the same final state under every larger bound; a run that is cut off is
still Running, after exactly that many steps (R108, R109; `drive` is log entry 13). -/
def Obligations.FuelOnlyCutsRunsOff : Prop :=
  ∀ (cfg : CacheConfig) (s t : State) (n : Nat),
    (drive cfg n s = .halted t → t.run = .halted ∧ ∀ m, n ≤ m → drive cfg m s = .halted t) ∧
    (drive cfg n s = .outOfFuel t → t.run = .running ∧ (blockIn cfg).run n s = .next t)

/-- The final pc of a run is the address of the halting Jump, and OBSERVE shows it, with register 0 as 0 (R65, R110). -/
def Obligations.FinalPcIsTheHaltingJump : Prop :=
  ∀ (cfg : CacheConfig) (s t : State) (n : Nat), s.run = .running → drive cfg n s = .halted t →
    decode t.fetchWord = .j t.pc ∧ (observe t).run = .halted ∧ (observe t).pc = t.pc ∧
    (observe t).registers[0] = 0 ∧ (observe t).memory = t.mem

/-! ## Reset and configuration -/

/-- R22: the start state that a legal configuration and an image give: registers 0, pc 0, Running, every cell as the
image has it, every line of every configured level EMPTY, no event. -/
def Obligations.StartStateIsAsResetSays : Prop :=
  ∀ (levels : List LevelShape) (image : CellAddr → Word) (cfg : CacheConfig) (s : State),
    boot levels image = .ok (cfg, s) →
    configuredShapes cfg = levels ∧
    (∀ r, s.readReg r = 0) ∧ s.regs = Vector.replicate 8 0 ∧ s.pc = 0 ∧ s.run = .running ∧
    (∀ a, s.loadCell a = image a) ∧ s.events = [] ∧
    ∀ name sh, levelShape? cfg name = some sh →
      (s.caches.level name).length = sh.capacity / (sh.associativity * sh.blockSize) ∧
      ∀ row ∈ s.caches.level name, row.length = sh.associativity ∧ ∀ line ∈ row, line = .empty

/-- Every start state has the invariant, and its directories are those of the empty history (R78, R89). -/
def Obligations.StartStateHasInvariants : Prop :=
  ∀ (levels : List LevelShape) (image : CellAddr → Word) (cfg : CacheConfig) (s : State),
    boot levels image = .ok (cfg, s) → s.Inv cfg ∧ s.FollowsHistory cfg

/-- A machine is built exactly for the legal configurations: 0, 1 or 2 levels, each with positive parameters and a
capacity that associativity × blockSize divides (R74, R76, R98). -/
def Obligations.BootBuildsExactlyLegalConfigurations : Prop :=
  ∀ (levels : List LevelShape) (image : CellAddr → Word),
    (∃ cfg s, boot levels image = .ok (cfg, s)) ↔
      levels.length ≤ 2 ∧ ∀ sh ∈ levels, 0 < sh.capacity ∧ 0 < sh.associativity ∧ 0 < sh.blockSize ∧
        sh.associativity * sh.blockSize ∣ sh.capacity

/-- The machine right after reset is the start state of the configuration and of the all-zero image that the model
chose (log entries 2 and 3). -/
def Obligations.ResetIsAStartState : Prop :=
  boot (configuredShapes Config.cache) (fun _ => 0) = .ok (Config.cache, State.reset)

/-! ## FUEL, and the configuration as an argument -/

/-- RUN under an unbounded FUEL, which is the default (R8, R108, R109): an end is a Halted one, it is the last state of
the run as a sequence, it is the only end, and every bound that is large enough finds it; a Halted end under a bound is the
end of the unbounded run; and there is no end exactly where the run is infinite, that is, where every bound cuts it off. -/
def Obligations.UnboundedRunHaltsOrRunsForever : Prop :=
  ∀ (cfg : CacheConfig) (s : State),
    (∀ e, Drives cfg s e → ∃ t n, e = .halted t ∧ t.run = .halted ∧ runSequence cfg s n = some t ∧
      runSequence cfg s (n + 1) = none ∧ ∀ m, n ≤ m → Drives cfg s e (.steps m)) ∧
    (∀ e e', Drives cfg s e → Drives cfg s e' → e = e') ∧
    (∀ t n, Drives cfg s (.halted t) (.steps n) → Drives cfg s (.halted t)) ∧
    ((∃ e, Drives cfg s e) ↔ ¬ RunsForever cfg s) ∧
    (RunsForever cfg s ↔ ∀ n, ∃ t, Drives cfg s (.outOfFuel t) (.steps n))

/-- Only LoadWord and StoreWord read the configuration (R20, R40): every other instruction does the same in the machine of
every configuration, so what the statements above say of it in `exec` they say of every configuration; and `exec` is the
machine of the constant `Config.cache`, which is the model's choice (log entries 1 and 2). -/
def Obligations.OnlyLoadsAndStoresReadConfiguration : Prop :=
  ∀ (i : Instr) (s : State), execIn Config.cache i s = exec i s ∧
    ∀ cfg, (∀ b a imm, i ≠ .lw b a imm ∧ i ≠ .sw b a imm) → execIn cfg i s = exec i s

/-- Legality is a precondition of construction (R74, R76, R98): whatever configuration a machine, a start state or a step
can be written down for has at most two levels, each with positive parameters and a row count that is an exact integer of
at least 1, and it is what CONFIG answers for its own levels, with the start state that `boot` gives; and CONFIG answers no
configuration but for the levels that it was given. -/
def Obligations.EveryMachineHasALegalConfiguration : Prop :=
  (∀ cfg : CacheConfig,
    (configuredShapes cfg).length ≤ 2 ∧
    (∀ sh ∈ configuredShapes cfg, 0 < sh.capacity ∧ 0 < sh.associativity ∧ 0 < sh.blockSize ∧
      ∃ rows, 1 ≤ rows ∧ sh.capacity = rows * (sh.associativity * sh.blockSize)) ∧
    configure (configuredShapes cfg) = .ok cfg ∧
    ∀ image, boot (configuredShapes cfg) image = .ok (cfg, startState cfg (Memory.ofImage image))) ∧
  ∀ (levels : List LevelShape) (cfg : CacheConfig), configure levels = .ok cfg → configuredShapes cfg = levels
end

