-- ==== Sys2Proof/Laws/Cache.lean ====
section
/-! SUPPORT. The laws of the cache controller's operations. -/

namespace Sys2Proof.Machine

/-- A lookup finds nothing exactly where no line holds the tag (R80). -/
theorem lookupTag_eq_none_iff (row : Row) (t : Nat) : lookupTag row t = none ↔ Line.tag t ∉ row := by
  simp only [lookupTag, List.findIdx?_eq_none_iff, beq_eq_false_iff_ne]
  exact ⟨fun h hm => h _ hm rfl, fun h l hl e => h (e ▸ hl)⟩

/-- A lookup that finds the tag names a position that holds it (R80). -/
theorem lookupTag_eq_some {row : Row} {t i : Nat} (h : lookupTag row t = some i) :
    ∃ hi : i < row.length, row[i] = Line.tag t := by
  obtain ⟨hi, hp, -⟩ := List.findIdx?_eq_some_iff_getElem.mp h
  exact ⟨hi, by simpa using hp⟩

/-- A level hits exactly where a line of the addressed row holds the tag (R80). -/
theorem levelHits_iff (sh : LevelShape) (dir : Directory) (addr : CellAddr) :
    levelHits sh dir addr = true ↔ Line.tag (tagOf sh addr) ∈ rowAt sh dir addr := by
  rw [levelHits, Option.isSome_iff_ne_none, ne_eq, lookupTag_eq_none_iff, not_not]

@[simp] theorem levelAccess_length (sh : LevelShape) (dir : Directory) (addr : CellAddr) :
    (levelAccess sh dir addr).length = dir.length := List.length_set

@[simp] theorem levelEvent_level (sh : LevelShape) (d : Directory) (n : LevelName) (a : CellAddr) (p : Word) (st : Bool) :
    (levelEvent sh d n a p st).level = n := rfl
@[simp] theorem levelEvent_address (sh : LevelShape) (d : Directory) (n : LevelName) (a : CellAddr) (p : Word)
    (st : Bool) : (levelEvent sh d n a p st).address = a := rfl
@[simp] theorem levelEvent_row (sh : LevelShape) (d : Directory) (n : LevelName) (a : CellAddr) (p : Word) (st : Bool) :
    (levelEvent sh d n a p st).row = rowIndex sh a := rfl
@[simp] theorem levelEvent_pc (sh : LevelShape) (d : Directory) (n : LevelName) (a : CellAddr) (p : Word) (st : Bool) :
    (levelEvent sh d n a p st).pc = p := rfl

@[simp] theorem cacheAccess_absent (d : Directories) (a : CellAddr) (p : Word) (st : Bool) :
    cacheAccess .absent d a p st = (d, []) := rfl

@[simp] theorem cacheAccess_oneLevel (s1 : LegalShape) (d : Directories) (a : CellAddr) (p : Word) (st : Bool) :
    cacheAccess (.oneLevel s1) d a p st =
      (⟨levelAccess s1.shape d.l1 a, d.l2⟩, [levelEvent s1.shape d.l1 .L1 a p st]) := rfl

/-- Everything an access to two levels can do (R85): L2 is reached by a store or by a load that misses L1. -/
theorem cacheAccess_twoLevels (s1 s2 : LegalShape) (d : Directories) (a : CellAddr) (p : Word) (st : Bool) :
    cacheAccess (.twoLevels s1 s2) d a p st =
      if st || !levelHits s1.shape d.l1 a then
        (⟨levelAccess s1.shape d.l1 a, levelAccess s2.shape d.l2 a⟩,
          [levelEvent s1.shape d.l1 .L1 a p st, levelEvent s2.shape d.l2 .L2 a p st])
      else (⟨levelAccess s1.shape d.l1 a, d.l2⟩, [levelEvent s1.shape d.l1 .L1 a p st]) := rfl

/-- No access changes the number of rows of a directory, whatever the configuration. -/
@[simp] theorem cacheAccess_l1_length (cfg : CacheConfig) (d : Directories) (a : CellAddr) (p : Word) (st : Bool) :
    (cacheAccess cfg d a p st).1.l1.length = d.l1.length := by
  cases cfg with
  | absent => rfl
  | oneLevel s1 => simp
  | twoLevels s1 s2 => rw [cacheAccess_twoLevels]; split <;> simp

@[simp] theorem cacheAccess_l2_length (cfg : CacheConfig) (d : Directories) (a : CellAddr) (p : Word) (st : Bool) :
    (cacheAccess cfg d a p st).1.l2.length = d.l2.length := by
  cases cfg with
  | absent => rfl
  | oneLevel s1 => rfl
  | twoLevels s1 s2 => rw [cacheAccess_twoLevels]; split <;> simp

/-- The parameters of a configured level are legal (R76). -/
theorem shapeLegal_of_levelShape? {cfg : CacheConfig} {name : LevelName} {sh : LevelShape}
    (h : levelShape? cfg name = some sh) : shapeLegal sh = true := by
  cases cfg with
  | absent => cases name <;> cases h
  | oneLevel s1 =>
    cases name with
    | L1 => cases h; exact s1.legal
    | L2 => cases h
  | twoLevels s1 s2 =>
    cases name with
    | L1 => cases h; exact s1.legal
    | L2 => cases h; exact s2.legal

end Sys2Proof.Machine
end

