-- ==== Sys2Proof/Laws/Decode.lean ====
section
/-! SUPPORT. The laws of the decoder's fields: what each field of a word in one of the three formats is (R43). -/

namespace Sys2Proof

/-- Concatenation as arithmetic. -/
theorem toNat_concat {n m : Nat} (x : BitVec n) (y : BitVec m) : (x ++ y).toNat = x.toNat * 2 ^ m + y.toNat := by
  rw [BitVec.toNat_append, ← Nat.shiftLeft_add_eq_or_of_lt y.isLt, Nat.shiftLeft_eq]

/-- A word of format RRR as a number (R43). -/
theorem formatRRR_toNat (op a b d : BitVec 3) (f : BitVec 4) :
    BitVec.toNat (w := 16) (op ++ a ++ b ++ d ++ f) =
      op.toNat * 8192 + a.toNat * 1024 + b.toNat * 128 + d.toNat * 16 + f.toNat := by
  refine (toNat_concat (op ++ a ++ b ++ d) f).trans ?_
  rw [toNat_concat, toNat_concat, toNat_concat]
  omega

/-- A word of format RRI as a number (R43). -/
theorem formatRRI_toNat (op a b : BitVec 3) (v : BitVec 7) :
    BitVec.toNat (w := 16) (op ++ a ++ b ++ v) = op.toNat * 8192 + a.toNat * 1024 + b.toNat * 128 + v.toNat := by
  refine (toNat_concat (op ++ a ++ b) v).trans ?_
  rw [toNat_concat, toNat_concat]
  omega

/-- A word of format J as a number (R43). -/
theorem formatJ_toNat (op : BitVec 3) (v : BitVec 13) :
    BitVec.toNat (w := 16) (op ++ v) = op.toNat * 8192 + v.toNat :=
  toNat_concat op v

/-- A field as arithmetic. -/
theorem toNat_field {n : Nat} (w : BitVec n) (lo len : Nat) :
    (w.extractLsb' lo len).toNat = w.toNat / 2 ^ lo % 2 ^ len := by
  rw [BitVec.extractLsb'_toNat, Nat.shiftRight_eq_div_pow]

/-- The fields of a word of format RRR. -/
theorem fields_formatRRR (op a b d : BitVec 3) (f : BitVec 4) :
    opcodeField (op ++ a ++ b ++ d ++ f) = op ∧ regAField (op ++ a ++ b ++ d ++ f) = a ∧
      regBField (op ++ a ++ b ++ d ++ f) = b ∧ regDestField (op ++ a ++ b ++ d ++ f) = d ∧
      funcCodeField (op ++ a ++ b ++ d ++ f) = f := by
  have h1 := op.isLt
  have h2 := a.isLt
  have h3 := b.isLt
  have h4 := d.isLt
  have h5 := f.isLt
  refine ⟨?_, ?_, ?_, ?_, ?_⟩ <;> apply BitVec.eq_of_toNat_eq <;>
    simp only [opcodeField, regAField, regBField, regDestField, funcCodeField, toNat_field, formatRRR_toNat] <;>
    omega

/-- The fields of a word of format RRI. -/
theorem fields_formatRRI (op a b : BitVec 3) (v : BitVec 7) :
    opcodeField (op ++ a ++ b ++ v) = op ∧ regAField (op ++ a ++ b ++ v) = a ∧
      regBField (op ++ a ++ b ++ v) = b ∧ imm7Field (op ++ a ++ b ++ v) = v := by
  have h1 := op.isLt
  have h2 := a.isLt
  have h3 := b.isLt
  have h4 := v.isLt
  refine ⟨?_, ?_, ?_, ?_⟩ <;> apply BitVec.eq_of_toNat_eq <;>
    simp only [opcodeField, regAField, regBField, imm7Field, toNat_field, formatRRI_toNat] <;> omega

/-- The fields of a word of format J. -/
theorem fields_formatJ (op : BitVec 3) (v : BitVec 13) :
    opcodeField (op ++ v) = op ∧ imm13Field (op ++ v) = v := by
  have h1 := op.isLt
  have h2 := v.isLt
  refine ⟨?_, ?_⟩ <;> apply BitVec.eq_of_toNat_eq <;>
    simp only [opcodeField, imm13Field, toNat_field, formatJ_toNat] <;> omega

/-- Widening gives an immediate in range (R44). -/
theorem immInRange_sext7 (v : BitVec 7) : immInRange (sext7 v) = true := by
  revert v
  decide

/-- A widened immediate keeps its field (R44). -/
theorem imm7_sext7 (v : BitVec 7) : (sext7 v).extractLsb' 0 7 = v := by
  revert v
  decide

/-- An immediate in range is the widening of its own low 7 bits. -/
theorem sext7_imm7_of_inRange (imm : Word) (h : immInRange imm = true) : sext7 (imm.extractLsb' 0 7) = imm := by
  have hcases : imm.toNat < 0x40 ∨ 0xFFC0 ≤ imm.toNat := by simpa [immInRange] using h
  have hlt := imm.isLt
  have key : ∀ n : Fin 128, sext7 ((BitVec.ofNat 16 (if n.val < 64 then n.val else 0xFF80 + n.val)).extractLsb' 0 7) =
      BitVec.ofNat 16 (if n.val < 64 then n.val else 0xFF80 + n.val) := by decide
  rcases hcases with hl | hh
  · have := key ⟨imm.toNat, by omega⟩
    rw [if_pos hl, BitVec.ofNat_toNat, BitVec.setWidth_eq] at this
    exact this
  · have := key ⟨imm.toNat - 0xFF80, by omega⟩
    rw [if_neg (by simp; omega), show 0xFF80 + (imm.toNat - 0xFF80) = imm.toNat by omega, BitVec.ofNat_toNat,
      BitVec.setWidth_eq] at this
    exact this

theorem zext13_toNat (v : BitVec 13) : (zext13 v).toNat = v.toNat := by
  have := v.isLt
  rw [zext13, BitVec.toNat_setWidth]
  omega

theorem targetInRange_zext13 (v : BitVec 13) : targetInRange (zext13 v) = true := by
  have := v.isLt
  simp only [targetInRange, zext13_toNat, decide_eq_true_eq]
  omega

theorem imm13_zext13 (v : BitVec 13) : (zext13 v).extractLsb' 0 13 = v := by
  apply BitVec.eq_of_toNat_eq
  have := v.isLt
  rw [toNat_field, zext13_toNat]
  omega

/-- A target in range is the widening of its own low 13 bits. -/
theorem zext13_imm13_of_inRange (target : Word) (h : targetInRange target = true) :
    zext13 (target.extractLsb' 0 13) = target := by
  have hlt : target.toNat < 8192 := by simpa [targetInRange] using h
  apply BitVec.eq_of_toNat_eq
  rw [zext13_toNat, BitVec.extractLsb'_toNat]
  simpa using Nat.mod_eq_of_lt hlt

/-- A word is its RRR fields put together again. -/
theorem word_eq_formatRRR (w : Word) :
    w = opcodeField w ++ regAField w ++ regBField w ++ regDestField w ++ funcCodeField w := by
  have := w.isLt
  apply BitVec.eq_of_toNat_eq
  rw [formatRRR_toNat]
  simp only [opcodeField, regAField, regBField, regDestField, funcCodeField, toNat_field]
  omega

/-- A word is its RRI fields put together again. -/
theorem word_eq_formatRRI (w : Word) : w = opcodeField w ++ regAField w ++ regBField w ++ imm7Field w := by
  have := w.isLt
  apply BitVec.eq_of_toNat_eq
  rw [formatRRI_toNat]
  simp only [opcodeField, regAField, regBField, imm7Field, toNat_field]
  omega

/-- A word is its J fields put together again. -/
theorem word_eq_formatJ (w : Word) : w = opcodeField w ++ imm13Field w := by
  have := w.isLt
  apply BitVec.eq_of_toNat_eq
  rw [formatJ_toNat]
  simp only [opcodeField, imm13Field, toNat_field]
  omega

end Sys2Proof
end

