-- ==== Sys2Proof/Laws/LoadStore.lean ====
section
/-! SUPPORT. What the two operations of 43_load_store.md answer, field by field, under any configuration. -/

namespace Sys2Proof.Machine

/-- Everything a LoadWord can do: it answers a next state, with the loaded cell in the destination, the pc advanced and
one access presented. -/
theorem loadWordIn_answers (cfg : CacheConfig) (b a : RegIdx) (imm : Word) (s : State) :
    ∃ t, loadWordIn cfg b a imm s = .next t ∧
      t.regs = (s.writeReg b (s.loadCell (effAddr s a imm))).regs ∧ t.pc = nextPc s.pc ∧ t.run = s.run ∧ t.mem = s.mem ∧
      t.caches = (cacheAccess cfg s.caches (effAddr s a imm) s.pc false).1 ∧
      t.events = s.events ++ (cacheAccess cfg s.caches (effAddr s a imm) s.pc false).2 :=
  ⟨_, rfl, rfl, rfl, rfl, rfl, rfl, rfl⟩

/-- Everything a StoreWord can do: it answers a next state, with the register in the addressed cell, the pc advanced and
one access presented. -/
theorem storeWordIn_answers (cfg : CacheConfig) (b a : RegIdx) (imm : Word) (s : State) :
    ∃ t, storeWordIn cfg b a imm s = .next t ∧
      t.mem = s.mem.writeCell (effAddr s a imm) (s.readReg b) ∧ t.regs = s.regs ∧ t.pc = nextPc s.pc ∧ t.run = s.run ∧
      t.caches = (cacheAccess cfg s.caches (effAddr s a imm) s.pc true).1 ∧
      t.events = s.events ++ (cacheAccess cfg s.caches (effAddr s a imm) s.pc true).2 :=
  ⟨_, rfl, rfl, rfl, rfl, rfl, rfl, rfl⟩

end Sys2Proof.Machine
end

