-- ==== Sys2Proof/Laws/Memory.lean ====
section
/-! SUPPORT. The laws of the memory list: what a read gives after a write, and that every operation keeps the canonical
form. -/

namespace Sys2Proof.Machine

theorem Memory.readByte_nil (key : Nat) : Memory.readByte [] key = Config.unlistedByte := rfl

theorem Memory.readByte_cons (k : Nat) (v : Byte) (rest : Memory) (key : Nat) :
    Memory.readByte ((k, v) :: rest) key = if k = key then v else Memory.readByte rest key := rfl

theorem Memory.writeByte_nil (key : Nat) (v : Byte) :
    Memory.writeByte [] key v = Memory.entry key v ++ [] := (List.append_nil _).symm

/-- Reading behind an entry: the entry decides its own key and nothing else, provided the rest does not list that key. -/
theorem Memory.readByte_entry_append (key : Nat) (v : Byte) (rest : Memory) (q : Nat) 
    (h : q = key → rest.readByte q = Config.unlistedByte) :
    Memory.readByte (Memory.entry key v ++ rest) q = if q = key then v else rest.readByte q := by
  unfold Memory.entry
  split
  · next hv =>
    by_cases hq : q = key
    · rw [List.nil_append, if_pos hq, h hq, hv]
    · rw [List.nil_append, if_neg hq]
  · rw [List.singleton_append, Memory.readByte_cons]
    simp only [eq_comm]

/-- An entry never changes what another key reads as. -/
theorem Memory.readByte_entry_append_ne (key : Nat) (v : Byte) (rest : Memory) (q : Nat) (h : q ≠ key) :
    Memory.readByte (Memory.entry key v ++ rest) q = rest.readByte q := by
  unfold Memory.entry
  split
  · rfl
  · rw [List.singleton_append, Memory.readByte_cons, if_neg (Ne.symm h)]

/-- A key below every listed one is not listed. -/
theorem Memory.readByte_of_lt (m : Memory) (key : Nat) (h : ∀ p ∈ m, key < p.1) :
    m.readByte key = Config.unlistedByte := by
  induction m with
  | nil => rfl
  | cons p rest ih =>
    rw [Memory.readByte_cons, if_neg (by have := h p (by simp); omega)]
    exact ih fun q hq => h q (by simp [hq])

/-- A write leaves every other key alone, in any list. -/
theorem Memory.readByte_writeByte_ne (m : Memory) (key : Nat) (v : Byte) (q : Nat) (h : q ≠ key) :
    (m.writeByte key v).readByte q = m.readByte q := by
  induction m with
  | nil => rw [Memory.writeByte_nil, Memory.readByte_entry_append_ne key v [] q h]
  | cons p rest ih =>
    obtain ⟨k, w⟩ := p
    unfold Memory.writeByte
    split
    · rw [Memory.readByte_cons, Memory.readByte_cons, ih]
    · split
      · next hk => rw [Memory.readByte_entry_append_ne _ _ _ _ h, Memory.readByte_cons, if_neg (by omega)]
      · rw [Memory.readByte_entry_append_ne _ _ _ _ h]

/-- The sorted half of the canonical form. -/
abbrev Memory.Sorted (m : Memory) : Prop := m.Pairwise fun p q => p.1 < q.1

theorem Memory.wf_iff (m : Memory) :
    m.wf = true ↔ m.Sorted ∧ ∀ p ∈ m, p.1 < 2 * Config.memSize ∧ p.2 ≠ Config.unlistedByte := by
  simp [Memory.wf, Memory.Sorted]

/-- In a sorted list the key just written reads as what was written. -/
theorem Memory.readByte_writeByte_self (m : Memory) (key : Nat) (v : Byte) (h : m.Sorted) :
    (m.writeByte key v).readByte key = v := by
  induction m with
  | nil => rw [Memory.writeByte_nil, Memory.readByte_entry_append key v [] key fun _ => rfl, if_pos rfl]
  | cons p rest ih =>
    obtain ⟨k, w⟩ := p
    obtain ⟨hlt, hs⟩ := List.pairwise_cons.mp h
    unfold Memory.writeByte
    split
    · next hk => rw [Memory.readByte_cons, if_neg (by omega), ih hs]
    · split
      · next hk =>
        rw [Memory.readByte_entry_append, if_pos rfl]
        exact fun _ => Memory.readByte_of_lt rest key fun q hq => hk ▸ hlt q hq
      · rw [Memory.readByte_entry_append, if_pos rfl]
        refine fun _ => Memory.readByte_of_lt _ key fun q hq => ?_
        rcases List.mem_cons.mp hq with rfl | hq
        · omega
        · have := hlt q hq
          omega

theorem Memory.mem_entry {key : Nat} {v : Byte} {p : Host.Cell} (h : p ∈ Memory.entry key v) :
    p = (key, v) ∧ v ≠ Config.unlistedByte := by
  unfold Memory.entry at h
  split at h
  · simp at h
  · exact ⟨by simpa using h, by assumption⟩

/-- Every entry after a write is the one written or one that stood before. -/
theorem Memory.mem_writeByte (m : Memory) (key : Nat) (v : Byte) {p : Host.Cell} (h : p ∈ m.writeByte key v) :
    (p = (key, v) ∧ v ≠ Config.unlistedByte) ∨ p ∈ m := by
  induction m with
  | nil => exact .inl (Memory.mem_entry h)
  | cons q rest ih =>
    obtain ⟨k, w⟩ := q
    unfold Memory.writeByte at h
    split at h
    · rcases List.mem_cons.mp h with rfl | h
      · simp
      · rcases ih h with h | h
        · exact .inl h
        · simp [h]
    · split at h
      · rcases List.mem_append.mp h with h | h
        · exact .inl (Memory.mem_entry h)
        · simp [h]
      · rcases List.mem_append.mp h with h | h
        · exact .inl (Memory.mem_entry h)
        · exact .inr h

theorem Memory.sorted_entry_append (key : Nat) (v : Byte) (rest : Memory) (hs : rest.Sorted)
    (h : ∀ p ∈ rest, key < p.1) : Memory.Sorted (Memory.entry key v ++ rest) := by
  unfold Memory.entry
  split
  · exact hs
  · exact List.pairwise_cons.mpr ⟨fun p hp => h p hp, hs⟩

theorem Memory.sorted_writeByte (m : Memory) (key : Nat) (v : Byte) (h : m.Sorted) :
    (m.writeByte key v).Sorted := by
  induction m with
  | nil => exact Memory.writeByte_nil key v ▸ Memory.sorted_entry_append key v [] List.Pairwise.nil (by simp)
  | cons p rest ih =>
    obtain ⟨k, w⟩ := p
    obtain ⟨hlt, hs⟩ := List.pairwise_cons.mp h
    unfold Memory.writeByte
    split
    · next hk =>
      refine List.pairwise_cons.mpr ⟨fun q hq => ?_, ih hs⟩
      rcases Memory.mem_writeByte rest key v hq with ⟨rfl, -⟩ | hq
      · exact hk
      · exact hlt q hq
    · split
      · next hk => exact Memory.sorted_entry_append _ _ _ hs fun q hq => hk ▸ hlt q hq
      · refine Memory.sorted_entry_append _ _ _ h fun q hq => ?_
        rcases List.mem_cons.mp hq with rfl | hq
        · omega
        · have := hlt q hq
          omega

/-- A write inside the array keeps the canonical form. -/
theorem Memory.wf_writeByte (m : Memory) (key : Nat) (v : Byte) (hk : key < 2 * Config.memSize) (h : m.wf = true) :
    (m.writeByte key v).wf = true := by
  rw [Memory.wf_iff] at h ⊢
  refine ⟨Memory.sorted_writeByte m key v h.1, fun p hp => ?_⟩
  rcases Memory.mem_writeByte m key v hp with ⟨rfl, hv⟩ | hp
  · exact ⟨hk, hv⟩
  · exact h.2 p hp

theorem Memory.sorted_of_wf {m : Memory} (h : m.wf = true) : m.Sorted := ((Memory.wf_iff m).mp h).1

/-- Writing a cell keeps the canonical form. -/
theorem Memory.wf_writeCell (m : Memory) (a : CellAddr) (v : Word) (h : m.wf = true) : (m.writeCell a v).wf = true := by
  have ha : a.toNat < 8192 := a.isLt
  exact Memory.wf_writeByte _ _ _ (by unfold Config.memSize; omega)
    (Memory.wf_writeByte _ _ _ (by unfold Config.memSize; omega) h)

/-- Writing a cell leaves every byte key outside the cell alone, in any list. -/
theorem Memory.readByte_writeCell_ne (m : Memory) (a : CellAddr) (v : Word) (key : Nat) (h0 : key ≠ 2 * a.toNat)
    (h1 : key ≠ 2 * a.toNat + 1) : (m.writeCell a v).readByte key = m.readByte key := by
  unfold Memory.writeCell
  rw [Memory.readByte_writeByte_ne _ _ _ _ h1, Memory.readByte_writeByte_ne _ _ _ _ h0]

/-- Writing a cell leaves every other cell alone, in any list. -/
theorem Memory.readCell_writeCell_ne (m : Memory) (a b : CellAddr) (v : Word) (h : b ≠ a) :
    (m.writeCell a v).readCell b = m.readCell b := by
  have hne : b.toNat ≠ a.toNat := fun e => h (BitVec.eq_of_toNat_eq e)
  unfold Memory.readCell
  rw [Memory.readByte_writeCell_ne _ _ _ _ (by omega) (by omega),
    Memory.readByte_writeCell_ne _ _ _ _ (by omega) (by omega)]

theorem append_halves (v : Word) : (v.extractLsb' 8 8 ++ v.extractLsb' 0 8 : BitVec 16) = v := by
  apply BitVec.eq_of_getLsbD_eq
  intro i hi
  simp only [BitVec.getLsbD_append, BitVec.getLsbD_extractLsb']
  by_cases h : i < 8
  · simp [h]
  · simp [h, show i - 8 < 8 by omega, show 8 + (i - 8) = i by omega]

/-- In canonical form the cell just written reads as what was written. -/
theorem Memory.readCell_writeCell_self (m : Memory) (a : CellAddr) (v : Word) (h : m.wf = true) :
    (m.writeCell a v).readCell a = v := by
  have ha : a.toNat < 8192 := a.isLt
  have h1 : (m.writeByte (2 * a.toNat) (v.extractLsb' 0 8)).wf = true :=
    Memory.wf_writeByte _ _ _ (by unfold Config.memSize; omega) h
  unfold Memory.readCell Memory.writeCell
  rw [Memory.readByte_writeByte_self _ _ _ (Memory.sorted_of_wf h1),
    Memory.readByte_writeByte_ne _ _ _ _ (by omega),
    Memory.readByte_writeByte_self _ _ _ (Memory.sorted_of_wf h)]
  exact append_halves v

/-- Everything a cell write does to cell reads (R27, R32). -/
theorem Memory.readCell_writeCell (m : Memory) (a b : CellAddr) (v : Word) (h : m.wf = true) :
    (m.writeCell a v).readCell b = if b = a then v else m.readCell b := by
  split
  · next e => rw [e, Memory.readCell_writeCell_self m a v h]
  · next e => exact Memory.readCell_writeCell_ne m a b v e

/-- Where nothing is listed, every cell reads as 0 (log entry 3). -/
@[simp] theorem Memory.readCell_nil (a : CellAddr) : Memory.readCell [] a = 0 := by
  simp [Memory.readCell, Memory.readByte_nil, Config.unlistedByte]

theorem Memory.wf_loadBelow (image : CellAddr → Word) (n : Nat) : (Memory.loadBelow image n).wf = true := by
  induction n with
  | zero => rfl
  | succ n ih => exact Memory.wf_writeCell _ _ _ ih

theorem Memory.ofImage_eq (image : CellAddr → Word) : Memory.ofImage image = Memory.loadBelow image 8192 := by
  rw [Memory.ofImage, Config.memSize]

/-- A loaded image is in canonical form. -/
theorem Memory.wf_ofImage (image : CellAddr → Word) : (Memory.ofImage image).wf = true := Memory.wf_loadBelow image _

/-- `addr mod 8192` (R27). -/
theorem cellOf_toNat (addr : Word) : (cellOf addr).toNat = addr.toNat % 8192 := by
  simp [cellOf, BitVec.extractLsb'_toNat]

end Sys2Proof.Machine
end

