-- ==== Sys2Proof/Laws/PerInstr.lean ====
section
/-! SUPPORT. The per-instruction family EncodeFitsRow: the encoder's word lies in the instruction's own row of the opcode
table. -/

namespace Sys2Proof.Laws.EncodeFitsRow

/-- The word the encoder writes has its row's fixed bits (spec/opcode_table.json). -/
def Statement (i : Instr) : Prop := encode i &&& i.row.mask = i.row.bits

theorem and_ones (x : BitVec 3) : x &&& 7#3 = x := BitVec.and_allOnes (x := x)

/-- Masking a format RRR word with 0xE00F leaves opcode and function code (R43). -/
theorem formatRRR_masked (op a b d : BitVec 3) (f : BitVec 4) :
    (op ++ a ++ b ++ d ++ f : Word) &&& 0xE00F#16 = op ++ 0#3 ++ 0#3 ++ 0#3 ++ f := by
  refine (BitVec.and_append (x₂ := 7#3 ++ 0#3 ++ 0#3 ++ 0#3) (y₂ := 15#4)).trans ?_
  rw [BitVec.and_append, BitVec.and_append, BitVec.and_append, and_ones, show f &&& 15#4 = f from BitVec.and_allOnes,
    BitVec.and_zero, BitVec.and_zero, BitVec.and_zero]

/-- Masking a format RRI word with 0xE000 leaves the opcode (R43). -/
theorem formatRRI_masked (op a b : BitVec 3) (v : BitVec 7) :
    (op ++ a ++ b ++ v : Word) &&& 0xE000#16 = op ++ 0#3 ++ 0#3 ++ 0#7 := by
  refine (BitVec.and_append (x₂ := 7#3 ++ 0#3 ++ 0#3) (y₂ := 0#7)).trans ?_
  rw [BitVec.and_append, BitVec.and_append, and_ones, BitVec.and_zero, BitVec.and_zero, BitVec.and_zero]

/-- Masking a format J word with 0xE000 leaves the opcode (R43). -/
theorem formatJ_masked (op : BitVec 3) (v : BitVec 13) : (op ++ v : Word) &&& 0xE000#16 = op ++ 0#13 := by
  refine (BitVec.and_append (x₂ := 7#3) (y₂ := 0#13)).trans ?_
  rw [and_ones, BitVec.and_zero]

theorem add (d a b : RegIdx) : Statement (.add d a b) := formatRRR_masked _ _ _ _ _
theorem sub (d a b : RegIdx) : Statement (.sub d a b) := formatRRR_masked _ _ _ _ _
theorem or (d a b : RegIdx) : Statement (.or d a b) := formatRRR_masked _ _ _ _ _
theorem and (d a b : RegIdx) : Statement (.and d a b) := formatRRR_masked _ _ _ _ _
theorem slt (d a b : RegIdx) : Statement (.slt d a b) := formatRRR_masked _ _ _ _ _
theorem jr (a : RegIdx) : Statement (.jr a) := formatRRR_masked _ _ _ _ _
theorem undefF5 : Statement .undefF5 := formatRRR_masked _ _ _ _ _
theorem undefF6 : Statement .undefF6 := formatRRR_masked _ _ _ _ _
theorem undefF7 : Statement .undefF7 := formatRRR_masked _ _ _ _ _
theorem undefF9 : Statement .undefF9 := formatRRR_masked _ _ _ _ _
theorem undefF10 : Statement .undefF10 := formatRRR_masked _ _ _ _ _
theorem undefF11 : Statement .undefF11 := formatRRR_masked _ _ _ _ _
theorem undefF12 : Statement .undefF12 := formatRRR_masked _ _ _ _ _
theorem undefF13 : Statement .undefF13 := formatRRR_masked _ _ _ _ _
theorem undefF14 : Statement .undefF14 := formatRRR_masked _ _ _ _ _
theorem undefF15 : Statement .undefF15 := formatRRR_masked _ _ _ _ _
theorem addi (b a : RegIdx) (imm : Word) : Statement (.addi b a imm) := formatRRI_masked _ _ _ _
theorem lw (b a : RegIdx) (imm : Word) : Statement (.lw b a imm) := formatRRI_masked _ _ _ _
theorem sw (b a : RegIdx) (imm : Word) : Statement (.sw b a imm) := formatRRI_masked _ _ _ _
theorem slti (b a : RegIdx) (imm : Word) : Statement (.slti b a imm) := formatRRI_masked _ _ _ _
theorem jeq (a b : RegIdx) (imm : Word) : Statement (.jeq a b imm) := formatRRI_masked _ _ _ _
theorem j (target : Word) : Statement (.j target) := formatJ_masked _ _
theorem jal (target : Word) : Statement (.jal target) := formatJ_masked _ _

end Sys2Proof.Laws.EncodeFitsRow
end

