-- ==== Sys2Proof/Laws/State.lean ====
section
/-! SUPPORT. The small lemmas of the state record: one per field per update, true by rfl. -/

namespace Sys2Proof.Machine

@[simp] theorem State.writeReg_regs (s : State) (r : RegIdx) (v : Word) :
    (s.writeReg r v).regs = if r = 0 then s.regs else s.regs.set r.toNat v r.isLt := rfl
@[simp] theorem State.writeReg_pc (s : State) (r : RegIdx) (v : Word) : (s.writeReg r v).pc = s.pc := rfl
@[simp] theorem State.writeReg_run (s : State) (r : RegIdx) (v : Word) : (s.writeReg r v).run = s.run := rfl
@[simp] theorem State.writeReg_mem (s : State) (r : RegIdx) (v : Word) : (s.writeReg r v).mem = s.mem := rfl
@[simp] theorem State.writeReg_caches (s : State) (r : RegIdx) (v : Word) : (s.writeReg r v).caches = s.caches := rfl
@[simp] theorem State.writeReg_events (s : State) (r : RegIdx) (v : Word) : (s.writeReg r v).events = s.events := rfl

@[simp] theorem State.setPc_regs (s : State) (v : Word) : (s.setPc v).regs = s.regs := rfl
@[simp] theorem State.setPc_pc (s : State) (v : Word) : (s.setPc v).pc = v := rfl
@[simp] theorem State.setPc_run (s : State) (v : Word) : (s.setPc v).run = s.run := rfl
@[simp] theorem State.setPc_mem (s : State) (v : Word) : (s.setPc v).mem = s.mem := rfl
@[simp] theorem State.setPc_caches (s : State) (v : Word) : (s.setPc v).caches = s.caches := rfl
@[simp] theorem State.setPc_events (s : State) (v : Word) : (s.setPc v).events = s.events := rfl

@[simp] theorem State.halt_regs (s : State) : (s.halt).regs = s.regs := rfl
@[simp] theorem State.halt_pc (s : State) : (s.halt).pc = s.pc := rfl
@[simp] theorem State.halt_run (s : State) : (s.halt).run = .halted := rfl
@[simp] theorem State.halt_mem (s : State) : (s.halt).mem = s.mem := rfl
@[simp] theorem State.halt_caches (s : State) : (s.halt).caches = s.caches := rfl
@[simp] theorem State.halt_events (s : State) : (s.halt).events = s.events := rfl

@[simp] theorem State.storeCell_regs (s : State) (a : CellAddr) (v : Word) : (s.storeCell a v).regs = s.regs := rfl
@[simp] theorem State.storeCell_pc (s : State) (a : CellAddr) (v : Word) : (s.storeCell a v).pc = s.pc := rfl
@[simp] theorem State.storeCell_run (s : State) (a : CellAddr) (v : Word) : (s.storeCell a v).run = s.run := rfl
@[simp] theorem State.storeCell_mem (s : State) (a : CellAddr) (v : Word) :
    (s.storeCell a v).mem = s.mem.writeCell a v := rfl
@[simp] theorem State.storeCell_caches (s : State) (a : CellAddr) (v : Word) :
    (s.storeCell a v).caches = s.caches := rfl
@[simp] theorem State.storeCell_events (s : State) (a : CellAddr) (v : Word) :
    (s.storeCell a v).events = s.events := rfl

@[simp] theorem State.memWrite_regs (s : State) (addr v : Word) : (s.memWrite addr v).regs = s.regs := rfl
@[simp] theorem State.memWrite_pc (s : State) (addr v : Word) : (s.memWrite addr v).pc = s.pc := rfl
@[simp] theorem State.memWrite_run (s : State) (addr v : Word) : (s.memWrite addr v).run = s.run := rfl
@[simp] theorem State.memWrite_mem (s : State) (addr v : Word) :
    (s.memWrite addr v).mem = s.mem.writeCell (cellOf addr) v := rfl
@[simp] theorem State.memWrite_caches (s : State) (addr v : Word) : (s.memWrite addr v).caches = s.caches := rfl
@[simp] theorem State.memWrite_events (s : State) (addr v : Word) : (s.memWrite addr v).events = s.events := rfl

@[simp] theorem State.presentAccess_regs (s : State) (cfg : CacheConfig) (addr : CellAddr) (pcv : Word) (st : Bool) :
    (s.presentAccess cfg addr pcv st).regs = s.regs := rfl
@[simp] theorem State.presentAccess_pc (s : State) (cfg : CacheConfig) (addr : CellAddr) (pcv : Word) (st : Bool) :
    (s.presentAccess cfg addr pcv st).pc = s.pc := rfl
@[simp] theorem State.presentAccess_run (s : State) (cfg : CacheConfig) (addr : CellAddr) (pcv : Word) (st : Bool) :
    (s.presentAccess cfg addr pcv st).run = s.run := rfl
@[simp] theorem State.presentAccess_mem (s : State) (cfg : CacheConfig) (addr : CellAddr) (pcv : Word) (st : Bool) :
    (s.presentAccess cfg addr pcv st).mem = s.mem := rfl
@[simp] theorem State.presentAccess_caches (s : State) (cfg : CacheConfig) (addr : CellAddr) (pcv : Word) (st : Bool) :
    (s.presentAccess cfg addr pcv st).caches = (cacheAccess cfg s.caches addr pcv st).1 := rfl
@[simp] theorem State.presentAccess_events (s : State) (cfg : CacheConfig) (addr : CellAddr) (pcv : Word) (st : Bool) :
    (s.presentAccess cfg addr pcv st).events = s.events ++ (cacheAccess cfg s.caches addr pcv st).2 := rfl

@[simp] theorem State.writeAndAdvance_regs (s : State) (r : RegIdx) (v : Word) :
    (s.writeAndAdvance r v).regs = if r = 0 then s.regs else s.regs.set r.toNat v r.isLt := rfl
@[simp] theorem State.writeAndAdvance_pc (s : State) (r : RegIdx) (v : Word) :
    (s.writeAndAdvance r v).pc = nextPc s.pc := rfl
@[simp] theorem State.writeAndAdvance_run (s : State) (r : RegIdx) (v : Word) :
    (s.writeAndAdvance r v).run = s.run := rfl
@[simp] theorem State.writeAndAdvance_mem (s : State) (r : RegIdx) (v : Word) :
    (s.writeAndAdvance r v).mem = s.mem := rfl
@[simp] theorem State.writeAndAdvance_caches (s : State) (r : RegIdx) (v : Word) :
    (s.writeAndAdvance r v).caches = s.caches := rfl
@[simp] theorem State.writeAndAdvance_events (s : State) (r : RegIdx) (v : Word) :
    (s.writeAndAdvance r v).events = s.events := rfl

@[simp] theorem State.stall_regs (s : State) : (s.stall).regs = s.regs := rfl
@[simp] theorem State.stall_pc (s : State) : (s.stall).pc = s.pc := rfl
@[simp] theorem State.stall_run (s : State) : (s.stall).run = s.run := rfl
@[simp] theorem State.stall_mem (s : State) : (s.stall).mem = s.mem := rfl
@[simp] theorem State.stall_caches (s : State) : (s.stall).caches = s.caches := rfl
@[simp] theorem State.stall_events (s : State) : (s.stall).events = s.events := rfl

@[simp] theorem State.idle_regs (s : State) : (s.idle).regs = s.regs := rfl
@[simp] theorem State.idle_pc (s : State) : (s.idle).pc = s.pc := rfl
@[simp] theorem State.idle_run (s : State) : (s.idle).run = s.run := rfl
@[simp] theorem State.idle_mem (s : State) : (s.idle).mem = s.mem := rfl
@[simp] theorem State.idle_caches (s : State) : (s.idle).caches = s.caches := rfl
@[simp] theorem State.idle_events (s : State) : (s.idle).events = s.events := rfl

@[simp] theorem State.withFetchWord_regs (s : State) (n w : Nat) : (s.withFetchWord n w).regs = s.regs := rfl
@[simp] theorem State.withFetchWord_pc (s : State) (n w : Nat) : (s.withFetchWord n w).pc = s.pc := rfl
@[simp] theorem State.withFetchWord_run (s : State) (n w : Nat) : (s.withFetchWord n w).run = .running := rfl
@[simp] theorem State.withFetchWord_mem (s : State) (n w : Nat) :
    (s.withFetchWord n w).mem = s.mem.writeCell (cellOf s.pc) (tableWord n w) := rfl
@[simp] theorem State.withFetchWord_caches (s : State) (n w : Nat) : (s.withFetchWord n w).caches = s.caches := rfl
@[simp] theorem State.withFetchWord_events (s : State) (n w : Nat) : (s.withFetchWord n w).events = s.events := rfl

@[simp] theorem startState_regs (cfg : CacheConfig) (mem : Memory) :
    (startState cfg mem).regs = Vector.replicate 8 0 := rfl
@[simp] theorem startState_pc (cfg : CacheConfig) (mem : Memory) : (startState cfg mem).pc = 0 := rfl
@[simp] theorem startState_run (cfg : CacheConfig) (mem : Memory) :
    (startState cfg mem).run = .running := rfl
@[simp] theorem startState_mem (cfg : CacheConfig) (mem : Memory) : (startState cfg mem).mem = mem := rfl
@[simp] theorem startState_caches (cfg : CacheConfig) (mem : Memory) :
    (startState cfg mem).caches = emptyDirectories cfg := rfl
@[simp] theorem startState_events (cfg : CacheConfig) (mem : Memory) : (startState cfg mem).events = [] := rfl

end Sys2Proof.Machine
end

