-- ==== Sys2Proof/Laws/Registers.lean ====
section
/-! SUPPORT. The laws of the register operations: everything a register write does to register reads. -/

namespace Sys2Proof.Machine

/-- Register 0 reads as 0 in every state (R13). -/
@[simp] theorem State.readReg_zero (s : State) : s.readReg 0 = 0 := rfl

/-- What an instruction reads depends on the register file alone. -/
theorem State.readReg_congr {s t : State} (h : s.regs = t.regs) (r : RegIdx) : s.readReg r = t.readReg r := by
  unfold State.readReg
  simp only [h]

/-- A register write, read back: the value in its register, unless that is register 0; every other register as before
(R10, R13). -/
theorem State.readReg_writeReg (s : State) (r : RegIdx) (v : Word) (q : RegIdx) :
    (s.writeReg r v).readReg q = if q = r ∧ r ≠ 0 then v else s.readReg q := by
  by_cases hr : r = 0
  · rw [if_neg (fun h => h.2 hr)]
    exact State.readReg_congr (by rw [State.writeReg_regs, if_pos hr]) q
  · by_cases hq : q = 0
    · rw [hq, if_neg (fun h => hr h.1.symm)]
      rfl
    · unfold State.readReg
      simp only [if_neg hq, State.writeReg_regs, if_neg hr]
      by_cases e : q = r
      · subst e
        rw [if_pos ⟨rfl, hr⟩, Vector.getElem_set_self]
      · have hne : r.toNat ≠ q.toNat := fun h => e (BitVec.eq_of_toNat_eq h.symm)
        rw [if_neg (fun h => e h.1), Vector.getElem_set_ne _ _ hne]

/-- A register write keeps slot 0, whatever it holds. -/
theorem State.writeReg_slot_zero (s : State) (r : RegIdx) (v : Word) : (s.writeReg r v).regs[0] = s.regs[0] := by
  by_cases hr : r = 0
  · simp only [State.writeReg_regs, if_pos hr]
  · have hne : r.toNat ≠ 0 := fun h => hr (BitVec.eq_of_toNat_eq h)
    simp only [State.writeReg_regs, if_neg hr]
    rw [Vector.getElem_set_ne _ _ hne]

theorem State.readReg_writeAndAdvance (s : State) (r : RegIdx) (v : Word) (q : RegIdx) :
    (s.writeAndAdvance r v).readReg q = if q = r ∧ r ≠ 0 then v else s.readReg q :=
  State.readReg_writeReg s r v q

theorem State.writeAndAdvance_slot_zero (s : State) (r : RegIdx) (v : Word) :
    (s.writeAndAdvance r v).regs[0] = s.regs[0] :=
  State.writeReg_slot_zero s r v

@[simp] theorem State.readReg_setPc (s : State) (v : Word) (q : RegIdx) : (s.setPc v).readReg q = s.readReg q := rfl
@[simp] theorem State.readReg_halt (s : State) (q : RegIdx) : s.halt.readReg q = s.readReg q := rfl
@[simp] theorem State.readReg_storeCell (s : State) (a : CellAddr) (v : Word) (q : RegIdx) :
    (s.storeCell a v).readReg q = s.readReg q := rfl
@[simp] theorem State.readReg_presentAccess (s : State) (cfg : CacheConfig) (a : CellAddr) (pcv : Word) (st : Bool) (q : RegIdx) :
    (s.presentAccess cfg a pcv st).readReg q = s.readReg q := rfl
@[simp] theorem State.loadCell_presentAccess (s : State) (cfg : CacheConfig) (a : CellAddr) (pcv : Word) (st : Bool) (b : CellAddr) :
    (s.presentAccess cfg a pcv st).loadCell b = s.loadCell b := rfl

/-- The sequential successor as a number: it wraps at 65536 (R14). -/
theorem nextPc_toNat (cur : Word) : (nextPc cur).toNat = (cur.toNat + 1) % 65536 := by
  simp [nextPc]

/-- The effective address as a number (R70). -/
theorem effAddr_toNat (s : State) (r : RegIdx) (imm : Word) :
    (effAddr s r imm).toNat = ((s.readReg r).toNat + imm.toNat) % 65536 % 8192 := by
  simp [effAddr, cellOf, BitVec.extractLsb'_toNat]

/-- The comparison to a register: 1 exactly where the first number is below the second (R54). -/
theorem lessThanWord_eq (a b : Word) : lessThanWord a b = if a.toNat < b.toNat then 1 else 0 := rfl

@[simp] theorem equalWords_iff (a b : Word) : equalWords a b = true ↔ a = b := by simp [equalWords]

end Sys2Proof.Machine
end

