-- ==== Sys2Proof/Laws/Run.lean ====
section
/-! SUPPORT. The laws of running the machine: one step at a time, and what drive does with its fuel. -/

namespace Sys2Proof.Machine

theorem run_zero (s : State) : Sys2Proof.core.run 0 s = .next s := rfl

/-- A run of n + 1 steps is one step and then a run of n. -/
theorem run_succ_of_step {s t : State} (n : Nat) (h : step s = .next t) :
    Sys2Proof.core.run (n + 1) s = Sys2Proof.core.run n t := by
  have h' : Sys2Proof.core.step s = .next t := h
  rw [Host.Core.run.eq_2 Sys2Proof.core s n, h']

theorem step_of_running {s : State} (h : s.run = .running) : step s = exec (decode s.fetchWord) s := by
  simp only [step, h]

theorem step_of_halted {s : State} (h : s.run = .halted) : step s = .next s := by
  simp only [step, h, State.idle]

/-- `exec` is the machine of the constant configuration (log entry 1). -/
theorem execIn_config (i : Instr) (s : State) : execIn Config.cache i s = exec i s := by
  cases i <;> rfl

/-- `step` is the step of the constant configuration (log entry 1). -/
theorem stepIn_config (s : State) : stepIn Config.cache s = step s := by
  cases h : s.run <;> simp only [stepIn, step, h, execIn_config]

theorem stepIn_of_running {s : State} (cfg : CacheConfig) (h : s.run = .running) :
    stepIn cfg s = execIn cfg (decode s.fetchWord) s := by
  simp only [stepIn, h]

theorem stepIn_of_halted {s : State} (cfg : CacheConfig) (h : s.run = .halted) : stepIn cfg s = .next s := by
  simp only [stepIn, h, State.idle]

/-- Everything a step can do under a configuration: a Halted engine keeps its state, a Running one executes the fetched
instruction. -/
theorem stepIn_cases {cfg : CacheConfig} {s t : State} (h : stepIn cfg s = .next t) :
    (s.run = .halted ∧ t = s) ∨ (s.run = .running ∧ execIn cfg (decode s.fetchWord) s = .next t) := by
  cases hr : s.run with
  | running => exact .inr ⟨rfl, by rwa [stepIn_of_running cfg hr] at h⟩
  | halted =>
    rw [stepIn_of_halted cfg hr] at h
    exact .inl ⟨rfl, (Host.Outcome.next.inj h).symm⟩

/-- A step of the machine of `step`, or of the machine with some configuration, is a step of the machine with some
configuration: one proof serves both. -/
theorem exists_stepIn {cfg : CacheConfig} {s t : State} (h : step s = .next t ∨ stepIn cfg s = .next t) :
    ∃ c, stepIn c s = .next t :=
  h.elim (fun h => ⟨Config.cache, (stepIn_config s).trans h⟩) fun h => ⟨cfg, h⟩

theorem blockIn_run_zero (cfg : CacheConfig) (s : State) : (blockIn cfg).run 0 s = .next s := rfl

/-- A run of n + 1 steps under a configuration is one step and then a run of n. -/
theorem blockIn_run_succ_of_step {cfg : CacheConfig} {s t : State} (n : Nat) (h : stepIn cfg s = .next t) :
    (blockIn cfg).run (n + 1) s = (blockIn cfg).run n t := by
  have h' : (blockIn cfg).step s = .next t := h
  rw [Host.Core.run.eq_2 (blockIn cfg) s n, h']

theorem runSequence_zero (cfg : CacheConfig) (s : State) : runSequence cfg s 0 = some s := rfl

/-- A run that has reached a Running state goes on with the step from it. -/
theorem runSequence_succ_of_step {cfg : CacheConfig} {s t u : State} {n : Nat} (h : runSequence cfg s n = some t)
    (hr : t.run = .running) (hs : stepIn cfg t = .next u) : runSequence cfg s (n + 1) = some u := by
  simp only [runSequence, h, hr, hs]

/-- A run that has reached a Halted state is over (R108). -/
theorem runSequence_succ_of_halted {cfg : CacheConfig} {s t : State} {n : Nat} (h : runSequence cfg s n = some t)
    (hr : t.run = .halted) : runSequence cfg s (n + 1) = none := by
  simp only [runSequence, h, hr]

/-- Driving a Halted engine: the run is over, whatever the fuel (R108). -/
theorem drive_of_halted {s : State} (cfg : CacheConfig) (fuel : Nat) (h : s.run = .halted) :
    drive cfg fuel s = .halted s := by
  cases fuel <;> simp only [drive, h]

/-- Driving a Running engine without fuel cuts the run off (R109). -/
theorem drive_zero_of_running {s : State} (cfg : CacheConfig) (h : s.run = .running) : drive cfg 0 s = .outOfFuel s := by
  simp only [drive, h]

/-- Driving a Running engine takes one step for one unit of fuel. -/
theorem drive_succ_of_step {cfg : CacheConfig} {s t : State} (fuel : Nat) (hr : s.run = .running)
    (h : stepIn cfg s = .next t) : drive cfg (fuel + 1) s = drive cfg fuel t := by
  simp only [drive, hr, h]

end Sys2Proof.Machine
end

