-- ==== Sys2Proof/Tests/Slice0.lean ====
section
/-! SUPPORT. The model's own tests: decoding of words written out from the spec's encodings, the refusals of the
well-formedness check, one-step vectors of 95_test_vectors.md, and a witness for the hypotheses of each statement. -/

namespace Sys2Proof.Tests

open Sys2Proof Sys2Proof.Machine

/-! ## Decoding: every constructor, from a word written bit by bit as opcode, regA, regB, rest (R43, R46, R47) -/

theorem test_decode_add : decode 0b0000010100110000 = .add 3 1 2 := by decide
theorem test_decode_sub : decode 0b0000010100110001 = .sub 3 1 2 := by decide
theorem test_decode_or : decode 0b0000010100110010 = .or 3 1 2 := by decide
theorem test_decode_and : decode 0b0000010100110011 = .and 3 1 2 := by decide
theorem test_decode_slt : decode 0b0000010100110100 = .slt 3 1 2 := by decide
theorem test_decode_undefF5 : decode 0b0000000000000101 = .undefF5 := by decide
theorem test_decode_undefF6 : decode 0b0000000000000110 = .undefF6 := by decide
theorem test_decode_undefF7 : decode 0b0000000000000111 = .undefF7 := by decide
theorem test_decode_jr : decode 0b0000011101011000 = .jr 1 := by decide
theorem test_decode_undefF9 : decode 0b0000010100111001 = .undefF9 := by decide
theorem test_decode_undefF10 : decode 0b0000000000001010 = .undefF10 := by decide
theorem test_decode_undefF11 : decode 0b0000000000001011 = .undefF11 := by decide
theorem test_decode_undefF12 : decode 0b0000000000001100 = .undefF12 := by decide
theorem test_decode_undefF13 : decode 0b0000000000001101 = .undefF13 := by decide
theorem test_decode_undefF14 : decode 0b0000000000001110 = .undefF14 := by decide
theorem test_decode_undefF15 : decode 0b0001111111111111 = .undefF15 := by decide
theorem test_decode_addi : decode 0b0010010011111111 = .addi 1 1 0xFFFF := by decide
theorem test_decode_j : decode 0b0100000000000010 = .j 2 := by decide
theorem test_decode_jal : decode 0b0111111111111111 = .jal 8191 := by decide
theorem test_decode_lw : decode 0b1000010100000011 = .lw 2 1 3 := by decide
theorem test_decode_sw : decode 0b1010000101111111 = .sw 2 0 0xFFFF := by decide
theorem test_decode_jeq : decode 0b1100010101111101 = .jeq 1 2 0xFFFD := by decide
theorem test_decode_slti : decode 0b1110010101000000 = .slti 2 1 0xFFC0 := by decide
theorem test_decodeTableWord_first_field : decodeTableWord 16 0x8503 = some (.lw 2 1 3) := by decide
theorem test_decodeTableWord_too_long : decodeTableWord 17 0x10000 = none := by decide

/-! ## Well-formedness: an ill-formed term for each check -/

theorem test_wf_refuses_addi : Instr.wf (.addi 0 0 0x40) = false := by decide
theorem test_wf_refuses_lw : Instr.wf (.lw 0 0 0xFFBF) = false := by decide
theorem test_wf_refuses_sw : Instr.wf (.sw 0 0 0x7F) = false := by decide
theorem test_wf_refuses_jeq : Instr.wf (.jeq 0 0 0x8000) = false := by decide
theorem test_wf_refuses_slti : Instr.wf (.slti 0 0 0x40) = false := by decide
theorem test_wf_refuses_j : Instr.wf (.j 0x2000) = false := by decide
theorem test_wf_refuses_jal : Instr.wf (.jal 0xFFFF) = false := by decide

/-! ## One-step vectors of 95_test_vectors.md, sections 2.2 to 2.5 -/

/-- A Running state with the given configuration, pc, registers and memory cells, everything else as after reset. -/
def stateWith (cfg : CacheConfig) (pc : Word) (regs : List (RegIdx × Word)) (cells : List (CellAddr × Word)) : State :=
  let loaded := startState cfg (cells.foldr (fun c m => Memory.writeCell m c.1 c.2) [])
  (regs.foldl (fun s r => s.writeReg r.1 r.2) loaded).setPc pc

/-- What a view of the state shows where the outcome is a next state. -/
def nextView {α : Type} (outcome : Result) (view : State → α) : Option α :=
  match outcome with
  | .next t => some (view t)
  | .fault _ => none
  | .refused _ => none

/-- V1. -/
theorem test_add_wraps : nextView (step (stateWith Config.cache 4 [(1, 0xFFFF), (2, 2)] [(4, 0x0530)]))
    (fun t => (t.readReg 3, t.pc)) = some (1, 5) := by decide
/-- V4: the sum is lost, the pc wraps. -/
theorem test_add_register_zero_lost : nextView (step (stateWith Config.cache 0xFFFF [(1, 3), (2, 4)] [(8191, 0x0500)]))
    (fun t => (t.readReg 0, t.pc)) = some (0, 0) := by decide
/-- V5. -/
theorem test_sub_order : nextView (step (stateWith Config.cache 0 [(1, 5), (2, 7)] [(0, 0x0531)]))
    (fun t => (t.readReg 3, t.pc)) = some (0xFFFE, 1) := by decide
/-- V7. -/
theorem test_sub_negates : nextView (step (stateWith Config.cache 0 [(2, 0x8000)] [(0, 0x0131)]))
    (fun t => (t.readReg 3, t.pc)) = some (0x8000, 1) := by decide
/-- V9. -/
theorem test_or : nextView (step (stateWith Config.cache 0 [(1, 0x0F0F), (2, 0x00FF)] [(0, 0x0532)]))
    (fun t => (t.readReg 3, t.pc)) = some (0x0FFF, 1) := by decide
/-- V10. -/
theorem test_and : nextView (step (stateWith Config.cache 0 [(1, 0x0F0F), (2, 0x00FF)] [(0, 0x0533)]))
    (fun t => (t.readReg 3, t.pc)) = some (0x000F, 1) := by decide
/-- V14: a signed comparison would give 0. -/
theorem test_slt_unsigned : nextView (step (stateWith Config.cache 0 [(1, 0x7FFF), (2, 0x8000)] [(0, 0x0534)]))
    (fun t => (t.readReg 3, t.pc)) = some (1, 1) := by decide
/-- V12. -/
theorem test_slt_large_left : nextView (step (stateWith Config.cache 0 [(1, 0xFFFF), (2, 1), (3, 9)] [(0, 0x0534)]))
    (fun t => (t.readReg 3, t.pc)) = some (0, 1) := by decide
/-- V17. -/
theorem test_addi_minus_one : nextView (step (stateWith Config.cache 0 [(1, 0)] [(0, 0x24FF)]))
    (fun t => (t.readReg 1, t.pc)) = some (0xFFFF, 1) := by decide
/-- V21: the pc is not reduced to 0. -/
theorem test_addi_pc_unmasked : nextView (step (stateWith Config.cache 0x1FFF [(1, 1)] [(8191, 0x2407)]))
    (fun t => (t.readReg 0, t.pc)) = some (0, 0x2000) := by decide
/-- V24: compares with 0xFFFF. -/
theorem test_slti_minus_one : nextView (step (stateWith Config.cache 0 [(1, 0x8000)] [(0, 0xE57F)]))
    (fun t => (t.readReg 2, t.pc)) = some (1, 1) := by decide
/-- V27. -/
theorem test_slti_equal : nextView (step (stateWith Config.cache 0 [(1, 0xFFC0), (2, 9)] [(0, 0xE540)]))
    (fun t => (t.readReg 2, t.pc)) = some (0, 1) := by decide
/-- V31. -/
theorem test_jr_unmasked : nextView (step (stateWith Config.cache 0 [(1, 0xABCD)] [(0, 0x0408)]))
    (fun t => (t.pc, t.run)) = some (0xABCD, .running) := by decide
/-- V32. -/
theorem test_jr_ignores_fields : nextView (step (stateWith Config.cache 0 [(1, 0x0100)] [(0, 0x0758)]))
    (fun t => (t.pc, t.run)) = some (0x0100, .running) := by decide
/-- V37. -/
theorem test_j_halts : nextView (step (stateWith Config.cache 0x1FFF [] [(8191, 0x5FFF)]))
    (fun t => (t.pc, t.run)) = some (0x1FFF, .halted) := by decide
/-- V36: cur 0x2002 is not the target 2. -/
theorem test_j_unmasked_pc : nextView (step (stateWith Config.cache 0x2002 [] [(2, 0x4002)]))
    (fun t => (t.pc, t.run)) = some (2, .running) := by decide
/-- V41. -/
theorem test_jal_links_unmasked : nextView (step (stateWith Config.cache 0x1FFF [] [(8191, 0x6000)]))
    (fun t => (t.readReg 7, t.pc)) = some (0x2000, 0) := by decide
/-- V40. -/
theorem test_jal_self_runs : nextView (step (stateWith Config.cache 3 [] [(3, 0x6003)]))
    (fun t => (t.readReg 7, t.pc, t.run)) = some (4, 3, .running) := by decide
/-- V45. -/
theorem test_jeq_taken_back : nextView (step (stateWith Config.cache 10 [(1, 4), (2, 4)] [(10, 0xC57D)]))
    (fun t => (t.pc, t.run)) = some (8, .running) := by decide
/-- V44. -/
theorem test_jeq_not_taken : nextView (step (stateWith Config.cache 10 [(1, 4), (2, 5)] [(10, 0xC503)]))
    (fun t => (t.pc, t.run)) = some (11, .running) := by decide
/-- V50. -/
theorem test_undefF5_stalls : nextView (step (stateWith Config.cache 3 [(1, 1)] [(3, 0x0005)]))
    (fun t => (t.pc, t.run, t.readReg 1)) = some (3, .running, 1) := by decide
/-- V51. -/
theorem test_undefF15_stalls : nextView (step (stateWith Config.cache 9 [(7, 1)] [(9, 0x1FFF)]))
    (fun t => (t.pc, t.run, t.readReg 7)) = some (9, .running, 1) := by decide
/-- V54. -/
theorem test_lw_wraps : nextView (step (stateWith Config.cache 5 [(1, 0x1FFF)] [(0, 0x3333), (5, 0x8501)]))
    (fun t => (t.readReg 2, t.pc)) = some (0x3333, 6) := by decide
/-- P3, step 2. -/
theorem test_lw_misses_both_levels : nextView (step (stateWith Config.cache 1 [(1, 20)] [(1, 0x8500), (20, 7)]))
    (fun t => (t.readReg 2, t.events)) = some (7, [⟨.L1, .miss, 1, 20, 0⟩, ⟨.L2, .miss, 1, 20, 0⟩]) := by decide
/-- V61. -/
theorem test_sw_wraps : nextView (step (stateWith Config.cache 4 [(1, 0xFFFF), (2, 0x5555)] [(4, 0xA501)]))
    (fun t => (t.loadCell 0, t.pc)) = some (0x5555, 5) := by decide
/-- V59. -/
theorem test_sw_event : nextView (stepIn (.oneLevel ⟨⟨4, 1, 2⟩, rfl⟩)
    (stateWith (.oneLevel ⟨⟨4, 1, 2⟩, rfl⟩) 9 [(1, 0x0010), (2, 0x1234)] [(9, 0xA503)]))
    (fun t => (t.loadCell 19, t.events)) = some (0x1234, [⟨.L1, .storeWrite, 9, 19, 1⟩]) := by decide

/-! ## The cache controller: K3, K5 and K7 of 95_test_vectors.md, section 2.6 -/

/-- K3: tag 101, not 100, is evicted by 102, because the hit refreshed 100. -/
theorem test_lru_refresh : updateRow (updateRow [.tag 100, .tag 101] 100) 102 = [.tag 100, .tag 102] := by decide
/-- K5: a store that misses evicts the least recently used tag. -/
theorem test_store_allocates :
    levelAccess ⟨2, 2, 1⟩ [[.tag 7, .tag 8]] 9 = [[.tag 8, .tag 9]] := by decide
/-- K7, second access: a load that hits L1 leaves L2 alone and emits one event. -/
theorem test_l1_hit_leaves_l2 :
    cacheAccess Config.cache ⟨[[.tag 10]], [[.empty, .tag 5], [.empty, .empty]]⟩ 21 0 false =
      (⟨[[.tag 10]], [[.empty, .tag 5], [.empty, .empty]]⟩, [⟨.L1, .hit, 0, 21, 0⟩]) := by decide
/-- Section 2.6: the shape (6, 1, 3) is legal, with 2 rows; address 10 has block 3, row 1, tag 1. -/
theorem test_shape_no_power_of_two :
    shapeLegal ⟨6, 1, 3⟩ = true ∧ rowCount ⟨6, 1, 3⟩ = 2 ∧ blockId ⟨6, 1, 3⟩ 10 = 3 ∧ rowIndex ⟨6, 1, 3⟩ 10 = 1 ∧
      tagOf ⟨6, 1, 3⟩ 10 = 1 := by decide
/-- Section 2.6: the illegal shapes. -/
theorem test_illegal_shapes :
    [LevelShape.mk 4 3 1, ⟨2, 2, 2⟩, ⟨0, 1, 1⟩, ⟨4, 0, 1⟩, ⟨4, 1, 0⟩].all (fun sh => !shapeLegal sh) = true := by decide
/-- The memory list right after reset is in canonical form. -/
theorem test_reset_memory_wf : State.reset.mem.wf = true := rfl

/-! ## Witnesses: a state and operands that meet all the hypotheses of each statement that has some -/

/-- The machine of `step` at a load, with the history of one earlier load of address 20, which missed both levels. -/
def historyState : State :=
  { stateWith Config.cache 7 [(1, 16)] [(7, 0x8503)] with
    caches := ⟨[[.tag 10]], [[.empty, .tag 5], [.empty, .empty]]⟩
    events := [⟨.L1, .miss, 3, 20, 0⟩, ⟨.L2, .miss, 3, 20, 0⟩] }

theorem historyState_inv : historyState.Inv Config.cache := by decide

theorem historyState_followsHistory : historyState.FollowsHistory Config.cache := by
  intro name sh h
  cases name
  · obtain rfl : LevelShape.mk 2 1 2 = sh := Option.some.inj h
    intro r hr
    obtain rfl : r = 0 := Nat.lt_one_iff.mp hr
    decide
  · obtain rfl : LevelShape.mk 8 2 2 = sh := Option.some.inj h
    intro r hr
    obtain rfl | rfl : r = 0 ∨ r = 1 := Nat.le_one_iff_eq_zero_or_eq_one.mp (Nat.le_of_lt_succ hr)
    · decide
    · decide

/-- A Jump to its own cell. -/
def haltingState : State := stateWith Config.cache 0 [] [(0, 0x4000)]
/-- An undefined function code. -/
def stallingState : State := stateWith Config.cache 3 [] [(3, 5)]
/-- A JumpAndLink to its own cell. -/
def selfJalState : State := stateWith Config.cache 3 [] [(3, 0x6003)]
/-- A JumpRegister to its own cell. -/
def selfJrState : State := stateWith Config.cache 3 [(1, 3)] [(3, 0x0408)]
/-- A JumpIfEqual to its own cell. -/
def selfJeqState : State := stateWith Config.cache 10 [] [(10, 0xC07F)]
/-- A Jump to its own cell, fetched with the pc 8192. -/
def aliasedState : State := stateWith Config.cache 0x2000 [] [(0, 0x4000)]
/-- A StoreWord to cell 0. -/
def storingState : State := stateWith Config.cache 4 [(1, 0xFFFF), (2, 0x5555)] [(4, 0xA501)]
/-- A StoreWord to the cell of the next instruction. -/
def codeStoringState : State := stateWith Config.cache 0 [(1, 0x2481)] [(0, 0xA081)]

/-- For DecodeEncodeRoundTrip, at both ends of the immediate's range. -/
theorem witness_round_trip : Instr.wf (.addi 7 7 0xFFC0) = true ∧ Instr.wf (.addi 7 7 0x3F) = true := by decide

/-- For StepRunsDecodedInstruction. -/
theorem witness_step_decoded : State.reset.run = .running ∧
    decode (State.reset.mem.readCell (BitVec.ofNat 13 (State.reset.pc.toNat % 8192))) = .add 0 0 0 := by decide

/-- For ProgramCounterTable and HaltsExactlyOnSelfJump, in the machine of `step` and in that of another configuration. -/
theorem witness_running_step : historyState.run = .running ∧ (∃ t, step historyState = .next t) ∧
    ∃ t, stepIn (.oneLevel ⟨⟨1, 1, 1⟩, rfl⟩) historyState = .next t := ⟨rfl, ⟨_, rfl⟩, _, rfl⟩

/-- For HaltsExactlyOnSelfJump, where the step halts. -/
theorem witness_halting_step : haltingState.run = .running ∧
    step haltingState = .next haltingState.halt := ⟨rfl, rfl⟩

/-- For RegisterZeroStaysZero, by a sum and a load into register 0. -/
theorem witness_slot_zero : historyState.regs[0] = 0 ∧ (∃ t, exec (.add 0 1 1) historyState = .next t) ∧
    ∃ t, execIn .absent (.lw 0 1 3) historyState = .next t := ⟨rfl, ⟨_, rfl⟩, _, rfl⟩

/-- For HaltedIsTerminal. -/
theorem witness_halted : historyState.halt.run = .halted := rfl

/-- For UndefinedCodesStall's last clause. -/
theorem witness_stall : stallingState.run = .running ∧
    (decode stallingState.fetchWord).isUndefined = true := by decide

/-- For SelfLoopsRunForever, by JumpAndLink. -/
theorem witness_self_jal : selfJalState.run = .running ∧
    decode selfJalState.fetchWord = .jal selfJalState.pc := by decide

/-- For SelfLoopsRunForever, by JumpRegister. -/
theorem witness_self_jr : selfJrState.run = .running ∧
    decode selfJrState.fetchWord = .jr 1 ∧
    selfJrState.readReg 1 = selfJrState.pc := by decide

/-- For SelfLoopsRunForever, by JumpIfEqual. -/
theorem witness_self_jeq : selfJeqState.run = .running ∧
    decode selfJeqState.fetchWord = .jeq 0 0 0xFFFF ∧
    selfJeqState.readReg 0 = selfJeqState.readReg 0 := by decide

/-- For AliasedSelfJumpHaltsOneStepLater, at the least pc it speaks of. -/
theorem witness_aliased_jump : aliasedState.run = .running ∧
    8192 ≤ aliasedState.pc.toNat ∧
    decode aliasedState.fetchWord = .j 0 ∧
    (0 : Word).toNat = aliasedState.pc.toNat % 8192 := by decide

/-- For OnlyStoreWordWritesMemory: a step after which cell 0 reads differently. -/
theorem witness_memory_changes : ∃ t, step storingState = .next t ∧
    t.loadCell 0 ≠ storingState.loadCell 0 :=
  ⟨_, rfl, by decide⟩

/-- For StoreWordWritesCell's clause about the cell itself. -/
theorem witness_memory_wf : historyState.mem.wf = true := by decide

/-- For StoreIsVisibleToNextFetch. -/
theorem witness_store_next_fetch : codeStoringState.mem.wf = true ∧
    codeStoringState.run = .running ∧
    decode codeStoringState.fetchWord = .sw 1 0 1 ∧
    effAddr codeStoringState 0 1 =
      cellOf (nextPc codeStoringState.pc) := by decide

/-- For RowAndTagDetermineBlock. -/
theorem witness_legal_shape : shapeLegal ⟨1, 1, 1⟩ = true := by decide

/-- For RowUpdateIsLeastRecentlyUsed, a hit at the front and a miss. -/
theorem witness_row_update : Line.tag 3 ∉ ([] : Row) ∧ Line.tag 3 ∉ [Line.empty, .tag 0] := by decide

/-- For LevelAccessTouchesOneRow. -/
theorem witness_level_row : (emptyDirectory ⟨8, 2, 2⟩)[rowIndex ⟨8, 2, 2⟩ 14]? = some [.empty, .empty] := by decide

/-- For TwoLevelProtocol: a level that misses an address and one that hits it. -/
theorem witness_protocol : levelHits ⟨1, 1, 1⟩ [[.empty]] 0 = false ∧ levelHits ⟨1, 1, 1⟩ [[.tag 0]] 0 = true := by decide

/-- For TagsABAMissThenHit, the first line occupied by another tag. -/
theorem witness_tags : (0 : Nat) ≠ 1 ∧ Line.tag 0 ∉ [Line.tag 2, .empty] ∧ Line.tag 1 ∉ [Line.tag 2, .empty] := by decide

/-- For OnlyLoadsAndStoresReachCaches: a step after which directory and events differ. -/
theorem witness_caches_change : ∃ t, step historyState = .next t ∧
    (t.caches ≠ historyState.caches ∨ t.events ≠ historyState.events) :=
  ⟨_, rfl, by decide⟩

/-- For EventsAppendInLevelOrder, ConfigurationNeverChanges, StepKeepsInvariant and DirectoriesFollowHistory. -/
theorem witness_history_step : historyState.Inv Config.cache ∧ historyState.FollowsHistory Config.cache ∧
    (∃ t, step historyState = .next t) ∧ ∃ t, stepIn Config.cache historyState = .next t :=
  ⟨historyState_inv, historyState_followsHistory, ⟨_, rfl⟩, _, rfl⟩

/-- For CachesAreTransparent: two states that differ in their directories. -/
theorem witness_same_view : SameProgramView (stateWith .absent 7 [(1, 16)] [(7, 0x8503)]) historyState ∧
    (stateWith .absent 7 [(1, 16)] [(7, 0x8503)]).caches ≠ historyState.caches :=
  ⟨⟨rfl, rfl, rfl, rfl⟩, by decide⟩

/-- For OnlyLoadsAndStoresReadConfiguration, by the other instruction that takes an immediate and two registers. -/
theorem witness_other_instruction :
    ∀ b a imm, Instr.addi 1 2 3 ≠ .lw b a imm ∧ Instr.addi 1 2 3 ≠ .sw b a imm := fun _ _ _ => ⟨nofun, nofun⟩

/-- For FuelOnlyCutsRunsOff and FinalPcIsTheHaltingJump: a run that halts. -/
theorem witness_drive_halts : haltingState.run = .running ∧
    drive Config.cache 1 haltingState = .halted haltingState.halt := ⟨rfl, rfl⟩

/-- For FuelOnlyCutsRunsOff: a run that is cut off. -/
theorem witness_drive_cut_off : ∃ t, drive Config.cache 1 historyState = .outOfFuel t := ⟨_, rfl⟩

/-- For UnboundedRunHaltsOrRunsForever: a run that ends under unbounded FUEL, which is the default. -/
theorem witness_unbounded_end : Drives Config.cache haltingState
    (.halted haltingState.halt) := ⟨⟨1, rfl⟩, nofun⟩

/-- For StartStateIsAsResetSays, StartStateHasInvariants, with one level and with none. -/
theorem witness_boot (image : CellAddr → Word) :
    (∃ s, boot [⟨6, 1, 3⟩] image = .ok (.oneLevel ⟨⟨6, 1, 3⟩, rfl⟩, s)) ∧ ∃ s, boot [] image = .ok (.absent, s) :=
  ⟨⟨_, rfl⟩, _, rfl⟩

/-- For the last clause of EveryMachineHasALegalConfiguration. -/
theorem witness_configure : configure [⟨6, 1, 3⟩] = .ok (.oneLevel ⟨⟨6, 1, 3⟩, rfl⟩) := rfl

end Sys2Proof.Tests
end

/-! Proofs about RUN (00_scope.md R8; 70_reset_and_hazards.md R108, R109). The idea: driving with `k + m` units of fuel is
driving with `m` from the state that the run as a sequence reaches after `k` steps, so that each end of a drive is read
off the sequence; and because every step completes, the sequence breaks off at a Halted state and nowhere else. -/

namespace Sys2Proof.Machine

section RunAsSequence

variable {cfg : CacheConfig} {s t u : State} {k n : Nat}

/-- Every instruction completes under every configuration (R92, R93). -/
theorem execIn_completes (cfg : CacheConfig) (i : Instr) (s : State) : ∃ t, execIn cfg i s = .next t := by
  cases i with
  | lw b a imm =>
    obtain ⟨t, ht, -⟩ := loadWordIn_answers cfg b a imm s
    exact ⟨t, ht⟩
  | sw b a imm =>
    obtain ⟨t, ht, -⟩ := storeWordIn_answers cfg b a imm s
    exact ⟨t, ht⟩
  | _ => exact ⟨_, rfl⟩

/-- Every step completes under every configuration, a Halted engine's included (R92, log entry 6). -/
theorem stepIn_completes (cfg : CacheConfig) (s : State) : ∃ t, stepIn cfg s = .next t := by
  cases hr : s.run with
  | running => exact stepIn_of_running cfg hr ▸ execIn_completes cfg (decode s.fetchWord) s
  | halted => exact ⟨s, stepIn_of_halted cfg hr⟩

/-- How a run gets to its next state: only by a step from a Running one (R108). -/
theorem runSequence_succ_eq_some (h : runSequence cfg s (k + 1) = some u) :
    ∃ t, runSequence cfg s k = some t ∧ t.run = .running ∧ stepIn cfg t = .next u := by
  cases hk : runSequence cfg s k with
  | none => simp [runSequence, hk] at h
  | some t =>
    cases hr : t.run with
    | halted => simp [runSequence_succ_of_halted hk hr] at h
    | running =>
      obtain ⟨v, hv⟩ := stepIn_completes cfg t
      obtain rfl : v = u := Option.some.inj ((runSequence_succ_of_step hk hr hv).symm.trans h)
      exact ⟨t, rfl, hr, hv⟩

/-- Within `n` steps the run reaches a Halted state, or else it has a state after all `n` of them (R108). -/
theorem runSequence_reaches_halted_or_bound (cfg : CacheConfig) (s : State) (n : Nat) :
    ∃ k ≤ n, ∃ t, runSequence cfg s k = some t ∧ (t.run = .halted ∨ k = n) := by
  induction n with
  | zero => exact ⟨0, le_rfl, s, runSequence_zero cfg s, .inr rfl⟩
  | succ n ih =>
    obtain ⟨k, hk, t, ht, hend⟩ := ih
    cases hr : t.run with
    | halted => exact ⟨k, Nat.le_succ_of_le hk, t, ht, .inl hr⟩
    | running =>
      obtain rfl : k = n := hend.resolve_left (by simp [hr])
      obtain ⟨u, hu⟩ := stepIn_completes cfg t
      exact ⟨k + 1, le_rfl, u, runSequence_succ_of_step ht hr hu, .inr rfl⟩

/-- The first `k` units of fuel take the drive to the state that the run reaches after `k` steps. -/
theorem drive_add_of_runSequence (h : runSequence cfg s k = some t) (m : Nat) :
    drive cfg (k + m) s = drive cfg m t := by
  induction k generalizing t m with
  | zero =>
    obtain rfl : s = t := Option.some.inj h
    rw [Nat.zero_add]
  | succ k ih =>
    obtain ⟨r, hr, hrun, hstep⟩ := runSequence_succ_eq_some h
    calc drive cfg (k + 1 + m) s
      _ = drive cfg (k + (m + 1)) s := by rw [Nat.add_right_comm, Nat.add_assoc]
      _ = drive cfg (m + 1) r := ih hr (m + 1)
      _ = drive cfg m t := drive_succ_of_step m hrun hstep

/-- A Halted state of the run is the end of the drive under every bound that reaches it (R108, R109). -/
theorem drive_eq_halted_of_runSequence (h : runSequence cfg s k = some t) (hr : t.run = .halted) (hk : k ≤ n) :
    drive cfg n s = .halted t := by
  obtain ⟨m, rfl⟩ := Nat.exists_eq_add_of_le hk
  rw [drive_add_of_runSequence h, drive_of_halted cfg m hr]

/-- A run that is Running after `n` steps is cut off by the bound `n` in that state (R109). -/
theorem drive_eq_outOfFuel_of_runSequence (h : runSequence cfg s n = some t) (hr : t.run = .running) :
    drive cfg n s = .outOfFuel t :=
  (drive_add_of_runSequence h 0).trans (drive_zero_of_running cfg hr)

/-- Everything a drive under a bound can answer: it is cut off in the Running state after `n` steps, or it ends in the
Halted state that the run reaches within the bound. -/
theorem drive_cases (cfg : CacheConfig) (s : State) (n : Nat) :
    (∃ t, drive cfg n s = .outOfFuel t ∧ runSequence cfg s n = some t ∧ t.run = .running) ∨
      ∃ k ≤ n, ∃ t, drive cfg n s = .halted t ∧ runSequence cfg s k = some t ∧ t.run = .halted := by
  obtain ⟨k, hk, t, ht, hend⟩ := runSequence_reaches_halted_or_bound cfg s n
  cases hr : t.run with
  | halted => exact .inr ⟨k, hk, t, drive_eq_halted_of_runSequence ht hr hk, ht, hr⟩
  | running =>
    obtain rfl : k = n := hend.resolve_left (by simp [hr])
    exact .inl ⟨t, drive_eq_outOfFuel_of_runSequence ht hr, ht, hr⟩

end RunAsSequence

section UnboundedFuel

variable {cfg : CacheConfig} {s : State} {e e' : RunEnd}

/-- An end under unbounded FUEL is a Halted state that the run as a sequence reaches (R108, R109). -/
theorem Drives.exists_halted (h : Drives cfg s e) :
    ∃ t k, e = .halted t ∧ t.run = .halted ∧ runSequence cfg s k = some t := by
  obtain ⟨⟨n, rfl⟩, hcut⟩ := h
  rcases drive_cases cfg s n with ⟨t, ht, -⟩ | ⟨k, -, t, ht, hk, hr⟩
  · exact absurd ht (hcut t)
  · exact ⟨t, k, ht, hr, hk⟩

/-- The end under unbounded FUEL is the end under every bound that is large enough (R109). -/
theorem Drives.exists_bound (h : Drives cfg s e) : ∃ n, ∀ m, n ≤ m → drive cfg m s = e := by
  obtain ⟨t, k, rfl, hr, hk⟩ := h.exists_halted
  exact ⟨k, fun m hm => drive_eq_halted_of_runSequence hk hr hm⟩

/-- A run under unbounded FUEL has at most one end. -/
theorem Drives.unique (h : Drives cfg s e) (h' : Drives cfg s e') : e = e' := by
  obtain ⟨n, hn⟩ := h.exists_bound
  obtain ⟨n', hn'⟩ := h'.exists_bound
  exact (hn (max n n') (le_max_left n n')).symm.trans (hn' (max n n') (le_max_right n n'))

/-- A run is infinite exactly where every bound cuts it off (R108, R109). -/
theorem runsForever_iff_outOfFuel : RunsForever cfg s ↔ ∀ n, ∃ t, drive cfg n s = .outOfFuel t := by
  refine forall_congr' fun n => ⟨fun ⟨t, ht, hr⟩ => ⟨t, drive_eq_outOfFuel_of_runSequence ht hr⟩, fun ⟨t, ht⟩ => ?_⟩
  rcases drive_cases cfg s n with ⟨u, -, hu⟩ | ⟨k, -, u, hu, -⟩
  · exact ⟨u, hu⟩
  · cases ht.symm.trans hu

/-- A run under unbounded FUEL has an end exactly where it is not infinite (R108). -/
theorem exists_drives_iff_not_runsForever : (∃ e, Drives cfg s e) ↔ ¬ RunsForever cfg s := by
  rw [runsForever_iff_outOfFuel]
  constructor
  · rintro ⟨e, he⟩ hcut
    obtain ⟨t, k, rfl, hr, hk⟩ := he.exists_halted
    obtain ⟨u, hu⟩ := hcut k
    cases (drive_eq_halted_of_runSequence hk hr le_rfl).symm.trans hu
  · intro h
    obtain ⟨n, hn⟩ := not_forall.mp h
    exact ⟨drive cfg n s, ⟨n, rfl⟩, not_exists.mp hn⟩

end UnboundedFuel

/-- Settles O53: each part is read off the run as a sequence, which `drive` follows step by step. -/
theorem unboundedRunHaltsOrRunsForever : Obligations.UnboundedRunHaltsOrRunsForever := by
  intro cfg s
  refine ⟨fun e he => ?_, fun _ _ => Drives.unique, fun t n h => ⟨⟨n, h⟩, nofun⟩, exists_drives_iff_not_runsForever,
    runsForever_iff_outOfFuel⟩
  obtain ⟨t, n, rfl, hr, hn⟩ := he.exists_halted
  exact ⟨t, n, rfl, hr, hn, runSequence_succ_of_halted hn hr, fun m hm => drive_eq_halted_of_runSequence hn hr hm⟩

end Sys2Proof.Machine

/-! Proofs about the state (10_state.md; 20_memory.md; 45_cache_controller.md section 7; 70_reset_and_hazards.md R106). The
idea: `execIn_cases` says once what an instruction can do to the state, and every invariant is a short case analysis over
it; a row in order is some `EMPTY` lines and then a list of tags, and its update moves one tag to that list's end. -/

namespace Sys2Proof

/-- Every word decodes to a well-formed instruction: its immediate is a widened field (R44, R45, R50). -/
theorem wf_decode (w : Word) : (decode w).wf = true := by
  unfold decode
  dsimp only
  split
  case h_1 => unfold decodeRRR; dsimp only; split <;> rfl
  case h_3 | h_4 => exact targetInRange_zext13 _
  all_goals exact immInRange_sext7 _

end Sys2Proof

namespace Sys2Proof.Machine

section Instructions

variable {cfg : CacheConfig} {i : Instr} {s t : State}

/-- Everything an instruction can do: it writes at most one register and the pc, or halts the engine, or is a LoadWord or
a StoreWord (R55 to R72). -/
theorem execIn_cases (h : execIn cfg i s = .next t) :
    (∃ r v p, t = (s.writeReg r v).setPc p) ∨ t = s.halt ∨
      (∃ b a imm, i = .lw b a imm ∧ loadWordIn cfg b a imm s = .next t) ∨
      ∃ b a imm, i = .sw b a imm ∧ storeWordIn cfg b a imm s = .next t := by
  cases i with
  | lw b a imm => exact .inr (.inr (.inl ⟨b, a, imm, rfl, h⟩))
  | sw b a imm => exact .inr (.inr (.inr ⟨b, a, imm, rfl, h⟩))
  | j target =>
    have ht := Host.Outcome.next.inj h
    split at ht
    · exact .inr (.inl ht.symm)
    · exact .inl ⟨0, 0, target, ht.symm⟩
  | add | sub | or | and | slt | addi | slti | jal => exact .inl ⟨_, _, _, (Host.Outcome.next.inj h).symm⟩
  | _ => exact .inl ⟨0, 0, _, (Host.Outcome.next.inj h).symm⟩

/-- No instruction changes slot 0 (R13). -/
theorem execIn_slot_zero (h : execIn cfg i s = .next t) : t.regs[0] = s.regs[0] := by
  rcases execIn_cases h with ⟨r, v, p, rfl⟩ | rfl | ⟨b, a, imm, -, h⟩ | ⟨b, a, imm, -, h⟩
  · exact State.writeReg_slot_zero s r v
  · rfl
  · obtain ⟨u, hu, hregs, -⟩ := loadWordIn_answers cfg b a imm s
    obtain rfl := Host.Outcome.next.inj (hu.symm.trans h)
    simpa only [hregs] using State.writeReg_slot_zero s b _
  · obtain ⟨u, hu, -, hregs, -⟩ := storeWordIn_answers cfg b a imm s
    obtain rfl := Host.Outcome.next.inj (hu.symm.trans h)
    simp only [hregs]

/-- What an instruction can do outside the registers: a LoadWord presents its address to the cache controller, a StoreWord
presents it and writes the cell, and any other instruction leaves memory, directories and events alone (R20, R32, R40). -/
theorem execIn_access (h : execIn cfg i s = .next t) :
    (t.mem = s.mem ∧ KeepsCaches s t) ∨
      (∃ b a imm, i = .lw b a imm ∧ t.mem = s.mem ∧ PresentsAccess cfg s t (effAddr s a imm) false) ∨
      ∃ b a imm, i = .sw b a imm ∧ t.mem = s.mem.writeCell (effAddr s a imm) (s.readReg b) ∧
        PresentsAccess cfg s t (effAddr s a imm) true := by
  rcases execIn_cases h with ⟨r, v, p, rfl⟩ | rfl | ⟨b, a, imm, rfl, h⟩ | ⟨b, a, imm, rfl, h⟩
  · exact .inl ⟨rfl, rfl, rfl⟩
  · exact .inl ⟨rfl, rfl, rfl⟩
  · obtain ⟨u, hu, -, -, -, hmem, hpresents⟩ := loadWordIn_answers cfg b a imm s
    obtain rfl := Host.Outcome.next.inj (hu.symm.trans h)
    exact .inr (.inl ⟨b, a, imm, rfl, hmem, hpresents⟩)
  · obtain ⟨u, hu, hmem, -, -, -, hpresents⟩ := storeWordIn_answers cfg b a imm s
    obtain rfl := Host.Outcome.next.inj (hu.symm.trans h)
    exact .inr (.inr ⟨b, a, imm, rfl, hmem, hpresents⟩)

/-- A step leaves directories and events alone, or it is that of a Running engine which fetched a LoadWord or a StoreWord
and presented one access to the cache controller (R20, R40). -/
theorem stepIn_keepsCaches_or_presentsAccess (h : stepIn cfg s = .next t) :
    KeepsCaches s t ∨ s.run = .running ∧ ∃ b a imm isStore,
      (decode s.fetchWord = .lw b a imm ∨ decode s.fetchWord = .sw b a imm) ∧
      PresentsAccess cfg s t (effAddr s a imm) isStore := by
  rcases stepIn_cases h with ⟨-, rfl⟩ | ⟨hr, h⟩
  · exact .inl ⟨rfl, rfl⟩
  · rcases execIn_access h with ⟨-, hkeeps⟩ | ⟨b, a, imm, hi, -, hp⟩ | ⟨b, a, imm, hi, -, hp⟩
    · exact .inl hkeeps
    · exact .inr ⟨hr, b, a, imm, false, .inl hi, hp⟩
    · exact .inr ⟨hr, b, a, imm, true, .inr hi, hp⟩

/-- An instruction that is no LoadWord and no StoreWord does not read the configuration (R20, R40). -/
theorem execIn_eq_exec (cfg : CacheConfig) (s : State) (h : ∀ b a imm, i ≠ .lw b a imm ∧ i ≠ .sw b a imm) :
    execIn cfg i s = exec i s := by
  cases i with
  | lw b a imm => exact absurd rfl (h b a imm).1
  | sw b a imm => exact absurd rfl (h b a imm).2
  | _ => rfl

end Instructions

section Rows

variable {sh : LevelShape} {row : Row}

/-- A tag that a row holds moves to the end of the row, the lines behind it moving up (R82). -/
theorem updateRow_append {front : Row} {t : Nat} (back : Row) (h : Line.tag t ∉ front) :
    updateRow (front ++ .tag t :: back) t = front ++ back ++ [.tag t] := by
  have hnone : front.findIdx? (· == Line.tag t) = none := (lookupTag_eq_none_iff front t).mpr h
  have hfound : lookupTag (front ++ .tag t :: back) t = some front.length := by
    simp [lookupTag, List.findIdx?_append, List.findIdx?_cons, hnone]
  simp [updateRow, hfound, List.eraseIdx_append_of_length_le]

/-- A tag that a row does not hold replaces the front line, at the end of the row (R83). -/
theorem updateRow_cons {first : Line} {rest : Row} {t : Nat} (h : Line.tag t ∉ first :: rest) :
    updateRow (first :: rest) t = rest ++ [.tag t] := by
  simp [updateRow, (lookupTag_eq_none_iff _ t).mpr h]

/-- A row whose first lines, as many as `empties`, are `EMPTY`, and whose others hold these tags: the form that R89 (b)
gives every row. -/
def orderedRow (empties : Nat) (tags : List Nat) : Row :=
  List.replicate empties .empty ++ tags.map .tag

@[simp] theorem orderedRow_length (empties : Nat) (tags : List Nat) :
    (orderedRow empties tags).length = empties + tags.length := by
  simp [orderedRow]

@[simp] theorem tag_mem_orderedRow {empties t : Nat} {tags : List Nat} :
    Line.tag t ∈ orderedRow empties tags ↔ t ∈ tags := by
  simp [orderedRow, List.mem_replicate]

@[simp] theorem rowTags_orderedRow (empties : Nat) (tags : List Nat) : rowTags (orderedRow empties tags) = tags := by
  simp [rowTags, orderedRow, List.filterMap_map]

/-- A row is in order where it has this form, with as many lines as the level has and distinct tags within the bound
(R77, R89 (a) to (c)). -/
theorem rowWf_iff : rowWf sh row = true ↔
    ∃ empties tags, row = orderedRow empties tags ∧ empties + tags.length = sh.associativity ∧ tags.Nodup ∧
      ∀ t ∈ tags, t ≤ 8191 / sh.blockSize / rowCount sh := by
  simp only [rowWf, Bool.and_eq_true, decide_eq_true_eq, List.all_eq_true]
  constructor
  · rintro ⟨⟨⟨hlen, hrow⟩, hnodup⟩, hbound⟩
    have hsum := (orderedRow_length _ _).symm.trans ((congrArg List.length hrow).symm.trans hlen)
    exact ⟨_, rowTags row, hrow, hsum, hnodup, hbound⟩
  · rintro ⟨empties, tags, rfl, hlen, hnodup, hbound⟩
    rw [rowTags_orderedRow, ← hlen, Nat.add_sub_cancel]
    exact ⟨⟨⟨orderedRow_length _ _, rfl⟩, hnodup⟩, hbound⟩

/-- What an access does to a row in order with at least one line: the tag goes to the end of the row's tags, where a tag
that was not there takes the place of an `EMPTY` line, or of the first tag where there is no `EMPTY` line (R82, R83). -/
theorem updateRow_orderedRow {empties : Nat} {tags : List Nat} (t : Nat) (hlines : 0 < empties + tags.length) :
    ∃ empties' kept, updateRow (orderedRow empties tags) t = orderedRow empties' (kept ++ [t]) ∧
      empties' + kept.length + 1 = empties + tags.length ∧ kept.Sublist tags ∧ (tags.Nodup → t ∉ kept) := by
  by_cases ht : t ∈ tags
  · obtain ⟨front, back, rfl, hfront⟩ := List.eq_append_cons_of_mem ht
    refine ⟨empties, front ++ back, ?_, by simp; omega, by simp, fun hnodup => ?_⟩
    · have hmiss : Line.tag t ∉ orderedRow empties front := by simpa using hfront
      simpa [orderedRow] using updateRow_append (back.map Line.tag) hmiss
    · exact (List.nodup_cons.mp (List.perm_middle.nodup_iff.mp hnodup)).1
  · have hmiss : Line.tag t ∉ orderedRow empties tags := by simpa using ht
    cases empties with
    | succ empties =>
      have hupdate : updateRow (orderedRow (empties + 1) tags) t = orderedRow empties tags ++ [.tag t] :=
        updateRow_cons hmiss
      exact ⟨empties, tags, by simpa [orderedRow] using hupdate, by omega, List.Sublist.refl _, fun _ => ht⟩
    | zero =>
      cases tags with
      | nil => simp at hlines
      | cons first rest =>
        have hupdate : updateRow (orderedRow 0 (first :: rest)) t = orderedRow 0 rest ++ [.tag t] := updateRow_cons hmiss
        exact ⟨0, rest, by simpa [orderedRow] using hupdate, by simp, List.sublist_cons_self _ _,
          fun _ h => ht (List.mem_cons_of_mem _ h)⟩

/-- The update of a row keeps it in order (R89). -/
theorem rowWf_updateRow {t : Nat} (hlines : 0 < sh.associativity) (ht : t ≤ 8191 / sh.blockSize / rowCount sh)
    (h : rowWf sh row = true) : rowWf sh (updateRow row t) = true := by
  obtain ⟨empties, tags, rfl, hlen, hnodup, hbound⟩ := rowWf_iff.mp h
  obtain ⟨empties', kept, hupdate, hlen', hsub, hfresh⟩ := updateRow_orderedRow t (hlen ▸ hlines)
  refine rowWf_iff.mpr ⟨empties', kept ++ [t], hupdate, by simp; omega, ?_, fun u hu => ?_⟩
  · exact List.concat_eq_append ▸ (hnodup.sublist hsub).concat (hfresh hnodup)
  · rcases List.mem_append.mp hu with hu | hu
    · exact hbound u (hsub.subset hu)
    · exact List.mem_singleton.mp hu ▸ ht

/-- A row of `EMPTY` lines is in order. -/
theorem rowWf_replicate_empty (sh : LevelShape) : rowWf sh (List.replicate sh.associativity .empty) = true :=
  rowWf_iff.mpr ⟨sh.associativity, [], by simp [orderedRow], rfl, List.nodup_nil, by simp⟩

end Rows

section Directories

variable {sh : LevelShape} {dir : Directory} {cfg : CacheConfig} {d : Directories}

/-- A legal level has lines in every row, and rows (R75, R76). -/
theorem pos_of_shapeLegal (h : shapeLegal sh = true) : 0 < sh.associativity ∧ 0 < rowCount sh := by
  simp only [shapeLegal, Bool.and_eq_true, decide_eq_true_eq] at h
  obtain ⟨⟨⟨⟨-, hassoc⟩, -⟩, -⟩, hrows⟩ := h
  exact ⟨hassoc, hrows⟩

/-- The tag of an address is within the bound of R77, the tag of the last address. -/
theorem tagOf_le (sh : LevelShape) (a : CellAddr) : tagOf sh a ≤ 8191 / sh.blockSize / rowCount sh :=
  Nat.div_le_div_right (Nat.div_le_div_right (Nat.le_of_lt_succ a.isLt))

theorem directoryWf_iff : directoryWf sh dir = true ↔
    shapeLegal sh = true ∧ dir.length = rowCount sh ∧ ∀ row ∈ dir, rowWf sh row = true := by
  simp [directoryWf, and_assoc]

/-- A directory in order holds the addressed row, in order (R79). -/
theorem rowWf_rowAt (h : directoryWf sh dir = true) (a : CellAddr) : rowWf sh (rowAt sh dir a) = true := by
  obtain ⟨hlegal, hlen, hrows⟩ := directoryWf_iff.mp h
  have hindex : rowIndex sh a < dir.length := hlen ▸ Nat.mod_lt _ (pos_of_shapeLegal hlegal).2
  rw [rowAt, List.getD_eq_getElem _ _ hindex]
  exact hrows _ (List.getElem_mem hindex)

/-- An access keeps a level's directory in order (R84, R89). -/
theorem directoryWf_levelAccess (h : directoryWf sh dir = true) (a : CellAddr) :
    directoryWf sh (levelAccess sh dir a) = true := by
  obtain ⟨hlegal, hlen, hrows⟩ := directoryWf_iff.mp h
  refine directoryWf_iff.mpr ⟨hlegal, (levelAccess_length sh dir a).trans hlen, fun row hrow => ?_⟩
  rcases List.mem_or_eq_of_mem_set hrow with hrow | rfl
  · exact hrows row hrow
  · exact rowWf_updateRow (pos_of_shapeLegal hlegal).1 (tagOf_le sh a) (rowWf_rowAt h a)

/-- The cache controller keeps its directories in order (R85, R89). -/
theorem directoriesWf_cacheAccess (h : directoriesWf cfg d = true) (a : CellAddr) (p : Word) (st : Bool) :
    directoriesWf cfg (cacheAccess cfg d a p st).1 = true := by
  cases cfg with
  | absent => exact h
  | oneLevel s1 =>
    simp only [directoriesWf, cacheAccess_oneLevel, Bool.and_eq_true] at h ⊢
    exact ⟨directoryWf_levelAccess h.1 a, h.2⟩
  | twoLevels s1 s2 =>
    simp only [directoriesWf, Bool.and_eq_true] at h ⊢
    rw [cacheAccess_twoLevels]
    split
    · exact ⟨directoryWf_levelAccess h.1 a, directoryWf_levelAccess h.2 a⟩
    · exact ⟨directoryWf_levelAccess h.1 a, h.2⟩

/-- The event of a configured level is one that the level can emit (R86). -/
theorem eventWf_levelEvent {name : LevelName} (h : levelShape? cfg name = some sh) (dir : Directory) (a : CellAddr)
    (p : Word) (st : Bool) : eventWf cfg (levelEvent sh dir name a p st) = true := by
  simp [eventWf, h]

/-- Every event of an access is one that its level can emit (R85, R86). -/
theorem eventWf_cacheAccess {e : AccessEvent} {a : CellAddr} {p : Word} {st : Bool}
    (he : e ∈ (cacheAccess cfg d a p st).2) : eventWf cfg e = true := by
  cases cfg with
  | absent => simp at he
  | oneLevel s1 => exact List.mem_singleton.mp he ▸ eventWf_levelEvent rfl _ _ _ _
  | twoLevels s1 s2 =>
    have hl1 := eventWf_levelEvent (cfg := .twoLevels s1 s2) (name := .L1) rfl d.l1 a p st
    have hl2 := eventWf_levelEvent (cfg := .twoLevels s1 s2) (name := .L2) rfl d.l2 a p st
    rw [cacheAccess_twoLevels] at he
    split at he
    · rcases List.mem_pair.mp he with rfl | rfl
      · exact hl1
      · exact hl2
    · exact List.mem_singleton.mp he ▸ hl1

/-- Directories of `EMPTY` lines are in order (R78). -/
theorem directoryWf_emptyDirectory (h : shapeLegal sh = true) : directoryWf sh (emptyDirectory sh) = true :=
  directoryWf_iff.mpr ⟨h, List.length_replicate, fun _ hrow => List.eq_of_mem_replicate hrow ▸ rowWf_replicate_empty sh⟩

theorem directoriesWf_emptyDirectories (cfg : CacheConfig) : directoriesWf cfg (emptyDirectories cfg) = true := by
  cases cfg with
  | absent => rfl
  | oneLevel s1 => exact Bool.and_eq_true_iff.mpr ⟨directoryWf_emptyDirectory s1.legal, rfl⟩
  | twoLevels s1 s2 =>
    exact Bool.and_eq_true_iff.mpr ⟨directoryWf_emptyDirectory s1.legal, directoryWf_emptyDirectory s2.legal⟩

end Directories

section Invariant

variable {cfg : CacheConfig} {s t : State}

/-- A presented access keeps what the invariant says of directories and events. -/
theorem PresentsAccess.keeps_wf {a : CellAddr} {st : Bool} (h : PresentsAccess cfg s t a st)
    (hdirs : directoriesWf cfg s.caches = true) (hevents : s.events.all (eventWf cfg) = true) :
    directoriesWf cfg t.caches = true ∧ t.events.all (eventWf cfg) = true := by
  obtain ⟨hc, he⟩ := h
  refine ⟨hc ▸ directoriesWf_cacheAccess hdirs _ _ _, ?_⟩
  rw [he, List.all_append, hevents, Bool.true_and, List.all_eq_true]
  exact fun e => eventWf_cacheAccess

/-- Every instruction keeps the invariant, under every configuration. -/
theorem execIn_keeps_inv {i : Instr} (hs : s.Inv cfg) (h : execIn cfg i s = .next t) : t.Inv cfg := by
  obtain ⟨hmem, hzero, hdirs, hevents⟩ := hs
  have hzero' : t.regs[0] = 0 := (execIn_slot_zero h).trans hzero
  rcases execIn_access h with ⟨hm, hc, he⟩ | ⟨b, a, imm, -, hm, hp⟩ | ⟨b, a, imm, -, hm, hp⟩
  · exact ⟨hm ▸ hmem, hzero', hc ▸ hdirs, he ▸ hevents⟩
  · exact ⟨hm ▸ hmem, hzero', hp.keeps_wf hdirs hevents⟩
  · exact ⟨hm ▸ Memory.wf_writeCell _ _ _ hmem, hzero', hp.keeps_wf hdirs hevents⟩

/-- Every step keeps the invariant, under every configuration. -/
theorem stepIn_keeps_inv (hs : s.Inv cfg) (h : stepIn cfg s = .next t) : t.Inv cfg := by
  rcases stepIn_cases h with ⟨-, rfl⟩ | ⟨-, h⟩
  · exact hs
  · exact execIn_keeps_inv hs h

/-- A start state over a canonical memory list has the invariant (R22, R78). -/
theorem startState_inv (cfg : CacheConfig) {mem : Memory} (h : mem.wf = true) : (startState cfg mem).Inv cfg :=
  ⟨h, rfl, directoriesWf_emptyDirectories cfg, rfl⟩

end Invariant

section Boot

variable {levels : List LevelShape} {image : CellAddr → Word} {cfg : CacheConfig} {s : State} {sh : LevelShape}

/-- CONFIG answers no configuration but that of the levels it was given (R106). -/
theorem configuredShapes_of_configure (h : configure levels = .ok cfg) : configuredShapes cfg = levels := by
  unfold configure at h
  split at h
  · cases h; rfl
  · split at h
    · cases h; rfl
    · cases h
  · split at h
    · split at h
      · cases h; rfl
      · cases h
    · cases h
  · cases h

/-- What `boot` answers is what CONFIG answers, with the start state over the loaded image (R106). -/
theorem boot_eq_ok (h : boot levels image = .ok (cfg, s)) :
    configure levels = .ok cfg ∧ s = startState cfg (Memory.ofImage image) := by
  unfold boot at h
  split at h
  · cases h; exact ⟨by assumption, rfl⟩
  · cases h

/-- Loading the cells below `n` makes them read as the image (R107). -/
theorem Memory.readCell_loadBelow {n : Nat} (hn : n ≤ 8192) {a : CellAddr} (ha : a.toNat < n) :
    (Memory.loadBelow image n).readCell a = image a := by
  induction n with
  | zero => exact absurd ha (Nat.not_lt_zero _)
  | succ n ih =>
    rw [Memory.loadBelow, Memory.readCell_writeCell _ _ _ _ (Memory.wf_loadBelow image n)]
    split
    · next e => rw [e]
    · next e =>
      have hne : a.toNat ≠ n := fun h => e (by rw [← h, BitVec.ofNat_toNat, BitVec.setWidth_eq])
      exact ih (by omega) (by omega)

/-- LOAD makes every cell of a start state read as the image (R107). -/
theorem loadCell_startState (cfg : CacheConfig) (image : CellAddr → Word) (a : CellAddr) :
    (startState cfg (Memory.ofImage image)).loadCell a = image a := by
  rw [State.loadCell, startState_mem, Memory.ofImage_eq]
  exact Memory.readCell_loadBelow le_rfl a.isLt

/-- Every register of a start state reads as 0 (R22). -/
theorem readReg_startState (cfg : CacheConfig) (mem : Memory) (r : RegIdx) : (startState cfg mem).readReg r = 0 := by
  simp [State.readReg]

/-- A configured level starts with the directory that its parameters give (R78). -/
theorem emptyDirectories_level {name : LevelName} (h : levelShape? cfg name = some sh) :
    (emptyDirectories cfg).level name = emptyDirectory sh := by
  cases cfg with
  | absent => cases name <;> cases h
  | oneLevel s1 =>
    cases name with
    | L1 => cases h; rfl
    | L2 => cases h
  | twoLevels s1 s2 =>
    cases name with
    | L1 => cases h; rfl
    | L2 => cases h; rfl

/-- A directory at reset: its number of rows, and `associativity` `EMPTY` lines in each (R78). -/
theorem emptyDirectory_rows (sh : LevelShape) : (emptyDirectory sh).length = rowCount sh ∧
    ∀ row ∈ emptyDirectory sh, row.length = sh.associativity ∧ ∀ line ∈ row, line = .empty := by
  refine ⟨List.length_replicate, fun row hrow => ?_⟩
  obtain rfl := List.eq_of_mem_replicate hrow
  exact ⟨List.length_replicate, fun _ => List.eq_of_mem_replicate⟩

end Boot

/-- The fetched word is that of the cell `pc mod 8192` (R14). -/
theorem fetchWord_eq (s : State) : s.fetchWord = s.mem.readCell (BitVec.ofNat 13 (s.pc.toNat % 8192)) := by
  have hcell : cellOf s.pc = BitVec.ofNat 13 (s.pc.toNat % 8192) :=
    BitVec.eq_of_toNat_eq (by simp [cellOf_toNat])
  rw [← hcell]
  rfl

/-- A run of the machine of `step` is a run of the machine with the constant configuration. -/
theorem run_eq_blockIn_run (n : Nat) (s : State) : Sys2Proof.core.run n s = (blockIn Config.cache).run n s := by
  induction n generalizing s with
  | zero => rfl
  | succ n ih =>
    obtain ⟨t, ht⟩ := stepIn_completes Config.cache s
    rw [blockIn_run_succ_of_step n ht, run_succ_of_step n ((stepIn_config s).symm.trans ht), ih]

/-- A Halted engine keeps its state over any number of steps, under every configuration (R15, R105). -/
theorem blockIn_run_of_halted (cfg : CacheConfig) {s : State} (n : Nat) (h : s.run = .halted) :
    (blockIn cfg).run n s = .next s := by
  induction n with
  | zero => exact blockIn_run_zero cfg s
  | succ n ih => rw [blockIn_run_succ_of_step n (stepIn_of_halted cfg h), ih]

/-- Every step leaves each directory with its number of rows (R77). -/
theorem stepIn_keeps_rowCounts {cfg : CacheConfig} {s t : State} (h : stepIn cfg s = .next t) :
    t.caches.l1.length = s.caches.l1.length ∧ t.caches.l2.length = s.caches.l2.length := by
  rcases stepIn_keepsCaches_or_presentsAccess h with ⟨hc, -⟩ | ⟨-, b, a, imm, st, -, hc, -⟩
  · simp [hc]
  · simp [hc]

/-- Settles O43: the step of the machine of `step` is that of the constant configuration. -/
theorem stepKeepsInvariant : Obligations.StepKeepsInvariant :=
  ⟨fun s _ hs h => stepIn_keeps_inv hs ((stepIn_config s).trans h), fun _ _ _ => stepIn_keeps_inv⟩

/-- Settles O44, from the invariant of every start state. -/
theorem resetHasInvariant : Obligations.ResetHasInvariant :=
  startState_inv Config.cache rfl

/-- Settles O26: no instruction changes slot 0, and index 0 is never read from the file. -/
theorem registerZeroStaysZero : Obligations.RegisterZeroStaysZero := by
  intro cfg i s t hzero h
  have hslot : t.regs[0] = s.regs[0] :=
    h.elim (fun h => execIn_slot_zero ((execIn_config i s).trans h)) execIn_slot_zero
  exact ⟨hslot.trans hzero, State.readReg_zero t⟩

/-- Settles O28, by induction on the number of steps. -/
theorem haltedIsTerminal : Obligations.HaltedIsTerminal :=
  fun cfg s n h => ⟨(run_eq_blockIn_run n s).trans (blockIn_run_of_halted _ n h), blockIn_run_of_halted cfg n h⟩

/-- Settles O39: every other step keeps directories and events. -/
theorem onlyLoadsAndStoresReachCaches : Obligations.OnlyLoadsAndStoresReachCaches := by
  intro cfg s t h hchange
  obtain ⟨c, hc⟩ := exists_stepIn h
  rcases stepIn_keepsCaches_or_presentsAccess hc with ⟨hcaches, hevents⟩ | ⟨hr, b, a, imm, -, hi, -⟩
  · exact absurd hchange (by simp [hcaches, hevents])
  · exact ⟨hr, b, a, imm, hi⟩

/-- Settles O41: both machines take the same steps, and no access changes a number of rows. -/
theorem configurationNeverChanges : Obligations.ConfigurationNeverChanges :=
  ⟨fun s => (stepIn_config s).symm, run_eq_blockIn_run, fun _ _ _ => stepIn_keeps_rowCounts⟩

/-- Settles O49, field by field from `startState`. -/
theorem startStateIsAsResetSays : Obligations.StartStateIsAsResetSays := by
  intro levels image cfg s h
  obtain ⟨hcfg, rfl⟩ := boot_eq_ok h
  refine ⟨configuredShapes_of_configure hcfg, readReg_startState cfg _, rfl, rfl, rfl,
    loadCell_startState cfg image, rfl, fun name sh hsh => ?_⟩
  rw [startState_caches, emptyDirectories_level hsh]
  exact emptyDirectory_rows sh

/-- Settles O23: the cell is the one that the step fetches, and every word decodes to a well-formed instruction. -/
theorem stepRunsDecodedInstruction : Obligations.StepRunsDecodedInstruction := by
  rintro s i hr rfl
  rw [← fetchWord_eq]
  exact ⟨wf_decode _, step_of_running hr, fun cfg => stepIn_of_running cfg hr⟩

/-- Settles O54: the two instructions that read it are left out, and every other arm of `execIn` is `exec`. -/
theorem onlyLoadsAndStoresReadConfiguration : Obligations.OnlyLoadsAndStoresReadConfiguration :=
  fun i s => ⟨execIn_config i s, fun cfg => execIn_eq_exec cfg s⟩

end Sys2Proof.Machine

/-! Proofs about memory (20_memory.md). The idea: an address reaches memory only through `cellOf`, its residue modulo 8192,
and `execIn_access` says once which instruction writes memory and where, so that a cell that changes, or one that is
fetched after a store, is traced to one `writeCell`. -/

namespace Sys2Proof.Machine

/-- An address and its sum with a multiple of 8192, wrapped at 16 bits, name the same cell (R27, R28). -/
theorem cellOf_add_mul_memSize (a : Word) (k : Nat) : cellOf (a + BitVec.ofNat 16 (8192 * k)) = cellOf a := by
  apply BitVec.eq_of_toNat_eq
  rw [cellOf_toNat, cellOf_toNat, BitVec.toNat_add, BitVec.toNat_ofNat]
  omega

/-- An instruction after which a cell reads differently is a StoreWord to that cell (R32). -/
theorem execIn_changes_cell {cfg : CacheConfig} {i : Instr} {s t : State} {c : CellAddr} (h : execIn cfg i s = .next t)
    (hc : t.loadCell c ≠ s.loadCell c) : ∃ b a imm, i = .sw b a imm ∧ c = effAddr s a imm := by
  have same_of_mem_eq (hmem : t.mem = s.mem) : t.loadCell c = s.loadCell c := congrArg (Memory.readCell · c) hmem
  rcases execIn_access h with ⟨hmem, -⟩ | ⟨-, -, -, -, hmem, -⟩ | ⟨b, a, imm, hi, hmem, -⟩
  · exact absurd (same_of_mem_eq hmem) hc
  · exact absurd (same_of_mem_eq hmem) hc
  · refine ⟨b, a, imm, hi, by_contra fun hne => hc ?_⟩
    rw [State.loadCell, hmem]
    exact Memory.readCell_writeCell_ne _ _ _ _ hne

/-- The step of a StoreWord to the cell of the next instruction leaves a Running engine that fetches the stored word, under
every configuration (R38). -/
theorem stepIn_store_next_fetch (cfg : CacheConfig) {s : State} {b a : RegIdx} {imm : Word} (hwf : s.mem.wf = true)
    (hr : s.run = .running) (hi : decode s.fetchWord = .sw b a imm) (haddr : effAddr s a imm = cellOf (nextPc s.pc)) :
    ∃ t, stepIn cfg s = .next t ∧ t.run = .running ∧ t.fetchWord = s.readReg b := by
  obtain ⟨t, ht, hmem, -, hpc, hrun, -⟩ := storeWordIn_answers cfg b a imm s
  refine ⟨t, ?_, hrun.trans hr, ?_⟩
  · rw [stepIn_of_running cfg hr, hi]
    exact ht
  · rw [State.fetchWord, State.memRead, State.loadCell, hmem, hpc, haddr]
    exact Memory.readCell_writeCell_self _ _ _ hwf

/-- Settles O32: a step that changes a cell is that of a Running engine, whose instruction then changed it. -/
theorem onlyStoreWordWritesMemory : Obligations.OnlyStoreWordWritesMemory := by
  intro cfg s t c h hc
  obtain ⟨cfg', h⟩ := exists_stepIn h
  rcases stepIn_cases h with ⟨-, rfl⟩ | ⟨hr, h⟩
  · exact absurd rfl hc
  · exact ⟨hr, execIn_changes_cell h hc⟩

/-- Settles O33: the next step decodes the word that the store left in its cell. -/
theorem storeIsVisibleToNextFetch : Obligations.StoreIsVisibleToNextFetch := by
  intro s b a imm hwf hr hi haddr
  constructor
  · obtain ⟨t, ht, htr, hf⟩ := stepIn_store_next_fetch Config.cache hwf hr hi haddr
    exact ⟨t, (stepIn_config s).symm.trans ht, hf, hf ▸ step_of_running htr⟩
  · intro cfg
    obtain ⟨t, ht, htr, hf⟩ := stepIn_store_next_fetch cfg hwf hr hi haddr
    exact ⟨t, ht, hf, hf ▸ stepIn_of_running cfg htr⟩

/-- Settles O31: reads and writes reach memory through the cell of their address alone. -/
theorem addressesWrapAt8192 : Obligations.AddressesWrapAt8192 :=
  fun s a k v => ⟨congrArg s.loadCell (cellOf_add_mul_memSize a k),
    congrArg (s.storeCell · v) (cellOf_add_mul_memSize a k)⟩

end Sys2Proof.Machine

/-! Proofs about the encoding (30_encoding.md). The idea: `encode` writes back the fields that `decode` has read, but
for those the operation ignores, so that a word has the fixed bits of its instruction's row; and no word has those of two
rows of the opcode table, because any two rows differ in a bit that both fix. -/

namespace Sys2Proof

section Immediates

/-- `sext_7` is sign extension (R44). -/
theorem sext7_eq_signExtend (v : BitVec 7) : sext7 v = v.signExtend 16 := by
  revert v
  decide

theorem sext7_toInt (v : BitVec 7) : (sext7 v).toInt = v.toInt := by
  rw [sext7_eq_signExtend, BitVec.toInt_signExtend_of_le (by decide)]

/-- Bit 6 of a 7-bit field is set exactly in the upper half of its values (R44). -/
theorem getLsbD_six_iff (v : BitVec 7) : v.getLsbD 6 = true ↔ 64 ≤ v.toNat := by
  rw [← BitVec.msb_eq_getLsbD_last v, BitVec.msb_eq_decide, decide_eq_true_eq]

theorem sext7_toNat (v : BitVec 7) : (sext7 v).toNat = if 64 ≤ v.toNat then v.toNat ||| 0xFF80 else v.toNat := by
  have hwiden : (v.setWidth 16).toNat = v.toNat := BitVec.toNat_setWidth_of_le (by decide)
  simp only [sext7, getLsbD_six_iff]
  split
  · rw [BitVec.toNat_or, hwiden]
    rfl
  · exact hwiden

end Immediates

section RoundTrip

/-- Decoding is a left inverse of encoding on the instructions that some word encodes (R43, R46, R47, R50). -/
theorem decode_encode {i : Instr} (h : i.wf = true) : decode (encode i) = i := by
  cases i with
  | add | sub | or | and | slt | jr => simp [encode, wordRRR, decode, decodeRRR, fields_formatRRR]
  | addi b a imm | lw b a imm | sw b a imm | jeq a b imm | slti b a imm =>
    simp [encode, wordRRI, decode, fields_formatRRI, sext7_imm7_of_inRange imm h]
  | j target | jal target => simp [encode, wordJ, decode, fields_formatJ, zext13_imm13_of_inRange target h]
  | _ => rfl

/-- The word of an instruction with a widened immediate has that immediate's field as it stands. -/
theorem wordRRI_sext7 (op a b : BitVec 3) (v : BitVec 7) : wordRRI op a b (sext7 v) = op ++ a ++ b ++ v := by
  rw [wordRRI, imm7_sext7]

theorem wordJ_zext13 (op : BitVec 3) (v : BitVec 13) : wordJ op (zext13 v) = op ++ v := by
  rw [wordJ, imm13_zext13]

end RoundTrip

section UsedBits

variable {w : Word}

/-- The bits of its word that an operation does not ignore: its opcode, its function code and its operands (R49). -/
def usedBits : Instr → Word
  | .jr _ => 0xFC0F#16
  | i => if i.isUndefined = true then 0xE00F#16 else 0xFFFF#16

theorem and_fifteen (f : BitVec 4) : f &&& 15#4 = f := BitVec.and_allOnes

/-- A word of format RRR is masked field by field (R43). -/
theorem wordRRR_and_formatRRR (f f' : BitVec 4) (d a b op' d' a' b' : BitVec 3) :
    wordRRR f d a b &&& (op' ++ a' ++ b' ++ d' ++ f') = wordRRR (f &&& f') (d &&& d') (a &&& a') (b &&& b') := by
  refine BitVec.and_append.trans ?_
  rw [BitVec.and_append, BitVec.and_append, BitVec.and_append, BitVec.zero_and]
  rfl

/-- Masking with the used bits of JumpRegister clears regB and regDest. -/
theorem wordRRR_and_usedBits_jr (f : BitVec 4) (d a b : RegIdx) : wordRRR f d a b &&& 0xFC0F#16 = wordRRR f 0 a 0 := by
  refine (wordRRR_and_formatRRR f 15#4 d a b 7#3 0#3 7#3 0#3).trans ?_
  rw [and_fifteen, Laws.EncodeFitsRow.and_ones, BitVec.and_zero, BitVec.and_zero]
  rfl

/-- Masking with the used bits of an undefined instruction clears all three register fields. -/
theorem wordRRR_and_usedBits_undefined (f : BitVec 4) (d a b : RegIdx) :
    wordRRR f d a b &&& 0xE00F#16 = wordRRR f 0 0 0 := by
  refine (wordRRR_and_formatRRR f 15#4 d a b 7#3 0#3 0#3 0#3).trans ?_
  rw [and_fifteen, BitVec.and_zero, BitVec.and_zero, BitVec.and_zero]
  rfl

/-- The opcode bits of a word of format RRR are 0 (R43). -/
theorem wordRRR_and_low_bits (f : BitVec 4) (d a b : RegIdx) : wordRRR f d a b &&& 0x1FFF#16 = wordRRR f d a b := by
  refine (wordRRR_and_formatRRR f 15#4 d a b 0#3 7#3 7#3 7#3).trans ?_
  simp only [and_fifteen, Laws.EncodeFitsRow.and_ones]

theorem eq_and_low_bits_of_eq_and {f : BitVec 4} {d a b : RegIdx} {m : Word} (h : wordRRR f d a b = w &&& m) :
    wordRRR f d a b = w &&& (m &&& 0x1FFF#16) := by
  rw [← BitVec.and_assoc, ← h, wordRRR_and_low_bits]

theorem wordRRR_fields {f : BitVec 4} (h : opcodeField w = 0#3) (hf : funcCodeField w = f) :
    wordRRR f (regDestField w) (regAField w) (regBField w) = w := by
  rw [wordRRR, ← hf, ← h]
  exact (word_eq_formatRRR w).symm

theorem wordRRI_fields {op : BitVec 3} (h : opcodeField w = op) :
    wordRRI op (regAField w) (regBField w) (sext7 (imm7Field w)) = w := by
  rw [wordRRI_sext7, ← h]
  exact (word_eq_formatRRI w).symm

theorem wordJ_fields {op : BitVec 3} (h : opcodeField w = op) : wordJ op (zext13 (imm13Field w)) = w := by
  rw [wordJ_zext13, ← h]
  exact (word_eq_formatJ w).symm

theorem encode_decodeRRR (h : opcodeField w = 0#3) : encode (decodeRRR w) = w &&& usedBits (decodeRRR w) := by
  have used_all {f : BitVec 4} (hf : funcCodeField w = f) :
      wordRRR f (regDestField w) (regAField w) (regBField w) = w &&& 0xFFFF#16 :=
    (wordRRR_fields h hf).trans BitVec.and_allOnes.symm
  have used_none {f : BitVec 4} (hf : funcCodeField w = f) : wordRRR f 0 0 0 = w &&& 0xE00F#16 := by
    conv_rhs => rw [← wordRRR_fields h hf, wordRRR_and_usedBits_undefined]
  unfold decodeRRR
  dsimp only
  split
  case h_1 hf | h_2 hf | h_3 hf | h_4 hf | h_5 hf => exact used_all (BitVec.eq_of_toNat_eq hf)
  case h_9 hf =>
    conv_rhs => rw [← wordRRR_fields h (BitVec.eq_of_toNat_eq (y := 8#4) hf)]
    exact (wordRRR_and_usedBits_jr _ _ _ _).symm
  case h_6 hf | h_7 hf | h_8 hf | h_10 hf | h_11 hf | h_12 hf | h_13 hf | h_14 hf | h_15 hf =>
    exact used_none (BitVec.eq_of_toNat_eq hf)
  case h_16 =>
    have := (funcCodeField w).isLt
    exact used_none (BitVec.eq_of_toNat_eq (y := 15#4) (by grind))

/-- Encoding what a word decodes to restores the bits that the operation uses and clears the others (R49, R50). -/
theorem encode_decode (w : Word) : encode (decode w) = w &&& usedBits (decode w) := by
  have used_all : w = w &&& 0xFFFF#16 := BitVec.and_allOnes.symm
  unfold decode
  dsimp only
  split
  case h_1 h => exact encode_decodeRRR (BitVec.eq_of_toNat_eq h)
  case h_3 h | h_4 h => exact (wordJ_fields (BitVec.eq_of_toNat_eq h)).trans used_all
  case h_2 h | h_5 h | h_6 h | h_7 h => exact (wordRRI_fields (BitVec.eq_of_toNat_eq h)).trans used_all
  case h_8 =>
    have := (opcodeField w).isLt
    exact (wordRRI_fields (BitVec.eq_of_toNat_eq (y := 7#3) (by grind))).trans used_all

end UsedBits

section Rows

variable {r : OpcodeRow} {w : Word}

theorem usedBits_and_row_mask (i : Instr) : usedBits i &&& i.row.mask = i.row.mask := by
  cases i with
  | jr => exact (by decide : 0xFC0F#16 &&& 0xE00F#16 = 0xE00F#16)
  | add | sub | or | and | slt | addi | j | jal | lw | sw | jeq | slti => exact BitVec.allOnes_and
  | _ => rfl

/-- The word the encoder writes has the fixed bits of its row, for every instruction (spec/opcode_table.json). -/
theorem encode_fits_row (i : Instr) : encode i &&& i.row.mask = i.row.bits := by
  cases i with
  | addi | lw | sw | jeq | slti => exact Laws.EncodeFitsRow.formatRRI_masked _ _ _ _
  | j | jal => exact Laws.EncodeFitsRow.formatJ_masked _ _
  | _ => exact Laws.EncodeFitsRow.formatRRR_masked _ _ _ _ _

/-- A word has the fixed bits of the row of the instruction it decodes to. -/
theorem word_fits_decoded_row (w : Word) : w &&& (decode w).row.mask = (decode w).row.bits := by
  rw [← encode_fits_row, encode_decode, BitVec.and_assoc, usedBits_and_row_mask]

theorem row_mem_opcodeTable (i : Instr) : i.row ∈ opcodeTable := by
  cases i <;> simp [opcodeTable, Instr.row]

theorem opcodeTable_nodup : opcodeTable.Nodup := by
  decide

/-- Two rows of the opcode table that agree on the bits both fix are the same row. -/
theorem row_eq_of_bits_agree : ∀ r ∈ opcodeTable, ∀ r' ∈ opcodeTable,
    r.bits &&& r'.mask = r'.bits &&& r.mask → r = r' := by
  decide

/-- A word has the fixed bits of a row exactly where that is the decoded instruction's row (30_encoding.md, opening). -/
theorem fits_row_iff (hr : r ∈ opcodeTable) : w &&& r.mask = r.bits ↔ r = (decode w).row := by
  constructor
  · intro h
    refine row_eq_of_bits_agree r hr _ (row_mem_opcodeTable _) ?_
    rw [← h, ← word_fits_decoded_row, BitVec.and_assoc, BitVec.and_assoc, BitVec.and_comm r.mask]
  · rintro rfl
    exact word_fits_decoded_row w

/-- The rows of the ten undefined function codes (R48). -/
def undefinedRows : List OpcodeRow :=
  [Instr.undefF5.row, Instr.undefF6.row, Instr.undefF7.row, Instr.undefF9.row, Instr.undefF10.row,
    Instr.undefF11.row, Instr.undefF12.row, Instr.undefF13.row, Instr.undefF14.row, Instr.undefF15.row]

theorem mem_opcodeTable_of_mem_undefinedRows : ∀ r ∈ undefinedRows, r ∈ opcodeTable := by
  decide

theorem isUndefined_iff_row_mem (i : Instr) : i.isUndefined = true ↔ i.row ∈ undefinedRows := by
  cases i <;> simp [Instr.isUndefined, undefinedRows, Instr.row]

/-- A word decodes to an undefined instruction exactly where it has the fixed bits of one of the ten rows (R48). -/
theorem isUndefined_decode_iff : (decode w).isUndefined = true ↔ ∃ r ∈ undefinedRows, w &&& r.mask = r.bits := by
  rw [isUndefined_iff_row_mem]
  constructor
  · exact fun h => ⟨_, h, word_fits_decoded_row w⟩
  · rintro ⟨r, hr, h⟩
    rwa [← (fits_row_iff (mem_opcodeTable_of_mem_undefinedRows r hr)).mp h]

/-- Masked with 0xE00F, a word is left with its opcode and its function code (R42). -/
theorem and_opcode_funcCode_toNat (w : Word) : (w &&& 0xE00F#16).toNat = w.toNat / 8192 * 8192 + w.toNat % 16 := by
  conv_lhs => rw [word_eq_formatRRR w, Laws.EncodeFitsRow.formatRRR_masked, formatRRR_toNat]
  simp only [opcodeField, funcCodeField, toNat_field, BitVec.toNat_zero]
  omega

end Rows

/-- Settles O2: the fields of the encoded word are the operands, and a widened field is the operand itself. -/
theorem decodeEncodeRoundTrip : Obligations.DecodeEncodeRoundTrip :=
  fun _ => decode_encode

/-- Settles O3: the bits of opcode 0 are 0, so that the used bits may be masked without them. -/
theorem encodeDecodeRestoresUsedBits : Obligations.EncodeDecodeRestoresUsedBits := by
  intro w
  have h := encode_decode w
  generalize decode w = i at h ⊢
  cases i with
  | jr => exact eq_and_low_bits_of_eq_and (m := 0xFC0F#16) h
  | add | sub | or | and | slt | addi | j | jal | lw | sw | jeq | slti => exact h
  | _ => exact eq_and_low_bits_of_eq_and (m := 0xE00F#16) h

/-- Settles O4: every immediate and target of a decoded instruction is a widened field. -/
theorem decodeYieldsWellFormed : Obligations.DecodeYieldsWellFormed :=
  wf_decode

/-- Settles O5: the filter keeps the rows equal to the decoded instruction's, and the table lists that row once. -/
theorem everyWordMatchesItsOneRow : Obligations.EveryWordMatchesItsOneRow := by
  intro w
  calc opcodeTable.filter (fun r => w &&& r.mask = r.bits)
      = opcodeTable.filter (fun r => r = (decode w).row) :=
        List.filter_congr fun r hr => decide_eq_decide.mpr (fits_row_iff hr)
    _ = [(decode w).row] := by
        rw [List.filter_eq, List.count_eq_one_of_mem opcodeTable_nodup (row_mem_opcodeTable _), List.replicate_one]

/-- Settles O6: the ten rows fix the opcode at 0 and the function code at the ten values. -/
theorem undefinedExactlyTheTenCodes : Obligations.UndefinedExactlyTheTenCodes := by
  intro w
  have hcode (k : Word) : w &&& 0xE00F#16 = k ↔ w.toNat / 8192 * 8192 + w.toNat % 16 = k.toNat := by
    rw [← and_opcode_funcCode_toNat, BitVec.toNat_inj]
  rw [isUndefined_decode_iff]
  simp only [undefinedRows, List.mem_cons, List.not_mem_nil, or_false, or_and_right, exists_or, exists_eq_left,
    Instr.row, BitVec.ofNat_eq_ofNat, hcode, BitVec.toNat_ofNat]
  omega

/-- Settles O1: each word is decoded by evaluation. -/
theorem decodeReadsSpecVectors : Obligations.DecodeReadsSpecVectors := by
  unfold Obligations.DecodeReadsSpecVectors
  decide

/-- Settles O7: widening is sign extension, and each of the five words encodes its instruction. -/
theorem immediateIsSignExtended : Obligations.ImmediateIsSignExtended := by
  refine ⟨fun v => ?_, fun a b v => ?_⟩
  · have hge := v.le_toInt
    have hle := v.toInt_lt
    rw [sext7_toInt]
    exact ⟨rfl, by omega, by omega, sext7_toNat v⟩
  · have hwf := immInRange_sext7 v
    simp only [← wordRRI_sext7]
    exact ⟨decode_encode (i := .addi b a (sext7 v)) hwf, decode_encode (i := .lw b a (sext7 v)) hwf,
      decode_encode (i := .sw b a (sext7 v)) hwf, decode_encode (i := .jeq a b (sext7 v)) hwf,
      decode_encode (i := .slti b a (sext7 v)) hwf⟩

/-- Settles O8: the target's number is that of its field, and each of the two words encodes its instruction. -/
theorem targetIsZeroExtended : Obligations.TargetIsZeroExtended := by
  intro v
  have hlt := v.isLt
  have hwf := targetInRange_zext13 v
  simp only [← wordJ_zext13]
  exact ⟨zext13_toNat v, by rw [zext13_toNat]; omega, decode_encode (i := .j (zext13 v)) hwf,
    decode_encode (i := .jal (zext13 v)) hwf⟩

end Sys2Proof

/-! Proofs about the three-register instructions (40_three_register.md). The idea: each of the five defined ones computes one
value and ends with `writeAndAdvance`, whose whole effect is stated once; each undefined one is a step to the same state,
and a state that steps to itself is where its run stays. -/

namespace Sys2Proof

/-- The register fields of a word with an undefined function code are ignored (R49, R60). -/
theorem decode_formatRRR_of_isUndefined {i : Instr} {f : BitVec 4} (hi : i.isUndefined = true)
    (hf : encode i = wordRRR f 0 0 0) (a b d : RegIdx) : decode (0#3 ++ a ++ b ++ d ++ f) = i := by
  have hcode : funcCodeField (encode i) = f := by
    obtain ⟨-, -, -, -, h⟩ := fields_formatRRR 0#3 0#3 0#3 0#3 f
    exact (congrArg funcCodeField hf).trans h
  cases i with
  | undefF5 | undefF6 | undefF7 | undefF9 | undefF10 | undefF11 | undefF12 | undefF13 | undefF14 | undefF15 =>
    subst hcode
    simp only [decode, decodeRRR, fields_formatRRR]
    rfl
  | _ => cases hi

/-- Subtraction modulo 65536: the difference, with 65536 added first where it would be negative (R56). -/
theorem sub_eq_ofNat (x y : Word) : x - y =
    BitVec.ofNat 16 (if y.toNat ≤ x.toNat then x.toNat - y.toNat else x.toNat + 65536 - y.toNat) := by
  have hx := x.isLt
  have hy := y.isLt
  apply BitVec.eq_of_toNat_eq
  rw [BitVec.toNat_sub, BitVec.toNat_ofNat]
  split <;> omega

end Sys2Proof

namespace Sys2Proof.Machine

/-- The whole effect of the end of an instruction that computes a value (R63). -/
theorem writeAndAdvance_effect (s : State) (r : RegIdx) (v : Word) :
    WritesRegister s (s.writeAndAdvance r v) r v ∧ Advances s (s.writeAndAdvance r v) ∧
      (s.writeAndAdvance r v).run = s.run ∧ KeepsMemory s (s.writeAndAdvance r v) ∧
      KeepsCaches s (s.writeAndAdvance r v) :=
  ⟨State.readReg_writeAndAdvance s r v, nextPc_toNat s.pc, rfl, ⟨rfl, fun _ => rfl, fun _ => rfl⟩, rfl, rfl⟩

/-- An undefined instruction answers the same state, under every configuration (R60, log entry 8). -/
theorem execIn_of_isUndefined {i : Instr} (cfg : CacheConfig) (s : State) (h : i.isUndefined = true) :
    execIn cfg i s = .next s := by
  cases i with
  | undefF5 | undefF6 | undefF7 | undefF9 | undefF10 | undefF11 | undefF12 | undefF13 | undefF14 | undefF15 => rfl
  | _ => cases h

theorem exec_of_isUndefined {i : Instr} (s : State) (h : i.isUndefined = true) : exec i s = .next s :=
  (execIn_config i s).symm.trans (execIn_of_isUndefined Config.cache s h)

/-- A Running engine that fetches an undefined function code steps to its own state (R23, R60). -/
theorem stepIn_of_isUndefined {s : State} (cfg : CacheConfig) (hr : s.run = .running)
    (h : (decode s.fetchWord).isUndefined = true) : stepIn cfg s = .next s :=
  (stepIn_of_running cfg hr).trans (execIn_of_isUndefined cfg s h)

section StepToItself

variable {cfg : CacheConfig} {s : State}

theorem blockIn_run_of_step_self (h : stepIn cfg s = .next s) (n : Nat) : (blockIn cfg).run n s = .next s := by
  induction n with
  | zero => exact blockIn_run_zero cfg s
  | succ n ih => rw [blockIn_run_succ_of_step n h, ih]

theorem runSequence_of_step_self (hr : s.run = .running) (h : stepIn cfg s = .next s) (n : Nat) :
    runSequence cfg s n = some s := by
  induction n with
  | zero => exact runSequence_zero cfg s
  | succ n ih => exact runSequence_succ_of_step ih hr h

end StepToItself

/-- Settles O16: the engine steps to its own state, so that every state of its run is that one. -/
theorem undefinedCodesStall : Obligations.UndefinedCodesStall := by
  refine ⟨fun a b d => ?_, fun s => ?_, fun cfg s n hr hi => ?_⟩
  · have hdecode {i : Instr} {f : BitVec 4} (hi : i.isUndefined = true) (hf : encode i = wordRRR f 0 0 0) :=
      decode_formatRRR_of_isUndefined hi hf a b d
    exact ⟨hdecode rfl rfl, hdecode rfl rfl, hdecode rfl rfl, hdecode rfl rfl, hdecode rfl rfl, hdecode rfl rfl,
      hdecode rfl rfl, hdecode rfl rfl, hdecode rfl rfl, hdecode rfl rfl⟩
  · have hexec {i : Instr} (hi : i.isUndefined = true) := exec_of_isUndefined s hi
    exact ⟨hexec rfl, hexec rfl, hexec rfl, hexec rfl, hexec rfl, hexec rfl, hexec rfl, hexec rfl, hexec rfl, hexec rfl⟩
  · have hself (c : CacheConfig) : stepIn c s = .next s := stepIn_of_isUndefined c hr hi
    have hseq := runSequence_of_step_self hr (hself cfg)
    exact ⟨(run_eq_blockIn_run n s).trans (blockIn_run_of_step_self (hself Config.cache) n),
      blockIn_run_of_step_self (hself cfg) n, drive_eq_outOfFuel_of_runSequence (hseq n) hr, fun m => ⟨s, hseq m, hr⟩⟩

/-- Settles O9: addition of Words is addition modulo 65536. -/
theorem addWritesWrappedSum : Obligations.AddWritesWrappedSum := by
  refine fun d a b => ⟨decode_encode (i := .add d a b) rfl, fun s => ⟨_, rfl, ?_⟩⟩
  rw [← BitVec.add_def]
  exact writeAndAdvance_effect s d _

/-- Settles O10: subtraction of Words is subtraction modulo 65536. -/
theorem subWritesWrappedDifference : Obligations.SubWritesWrappedDifference := by
  refine fun d a b => ⟨decode_encode (i := .sub d a b) rfl, fun s => ⟨_, rfl, ?_⟩⟩
  rw [← sub_eq_ofNat]
  exact writeAndAdvance_effect s d _

/-- Settles O11, with the or of the two Words as the value. -/
theorem orWritesBitwiseOr : Obligations.OrWritesBitwiseOr :=
  fun d a b => ⟨decode_encode (i := .or d a b) rfl, fun s =>
    ⟨_, s.readReg a ||| s.readReg b, rfl, fun _ _ => BitVec.getLsbD_or, writeAndAdvance_effect s d _⟩⟩

/-- Settles O12, with the and of the two Words as the value. -/
theorem andWritesBitwiseAnd : Obligations.AndWritesBitwiseAnd :=
  fun d a b => ⟨decode_encode (i := .and d a b) rfl, fun s =>
    ⟨_, s.readReg a &&& s.readReg b, rfl, fun _ _ => BitVec.getLsbD_and, writeAndAdvance_effect s d _⟩⟩

/-- Settles O13: the value is that of the comparison to a register (R54). -/
theorem setLessThanComparesUnsigned : Obligations.SetLessThanComparesUnsigned := by
  refine fun d a b => ⟨decode_encode (i := .slt d a b) rfl, fun s => ⟨_, rfl, ?_⟩⟩
  rw [← lessThanWord_eq]
  exact writeAndAdvance_effect s d _

end Sys2Proof.Machine

/-! Proofs about the two immediate instructions (41_immediate.md). The idea: that their words decode to them is part of the
statement about immediates (R44), and each computes one value from the widened immediate and ends with `writeAndAdvance`. -/

namespace Sys2Proof.Machine

/-- Settles O14: addition of the widened immediate is addition of Words, which is modulo 65536. -/
theorem addImmediateWritesWrappedSum : Obligations.AddImmediateWritesWrappedSum := by
  intro a b v
  obtain ⟨-, hdecode⟩ := immediateIsSignExtended
  obtain ⟨haddi, -⟩ := hdecode a b v
  refine ⟨haddi, fun s => ⟨_, rfl, ?_⟩⟩
  rw [← BitVec.add_def]
  exact writeAndAdvance_effect s b _

/-- Settles O15: the immediate is widened before the unsigned comparison (R62). -/
theorem setLessThanImmediateComparesUnsigned : Obligations.SetLessThanImmediateComparesUnsigned := by
  intro a b v
  obtain ⟨-, hdecode⟩ := immediateIsSignExtended
  obtain ⟨-, -, -, -, hslti⟩ := hdecode a b v
  refine ⟨hslti, fun s => ⟨_, rfl, ?_⟩⟩
  rw [← lessThanWord_eq]
  exact writeAndAdvance_effect s b _

end Sys2Proof.Machine

/-! Proofs about control transfer and the halt condition (42_control_transfer.md; 70_reset_and_hazards.md R110, R113).
The idea: what an instruction does to the pc and to the run state is said once for all of them, and Jump alone halts; a
step that keeps the memory and the cell of the pc fetches the same word again, so that a loop of one instruction is an
invariant of the run. -/

namespace Sys2Proof

/-- JumpRegister ignores regB and regDest (R64). -/
theorem decode_formatRRR_jr (a b d : RegIdx) : decode (0#3 ++ a ++ b ++ d ++ 8#4) = .jr a := by
  simp [decode, decodeRRR, fields_formatRRR]

/-- A widened target is compared with a Word as a number (R45, R65). -/
theorem zext13_eq_iff (v : BitVec 13) (w : Word) : zext13 v = w ↔ v.toNat = w.toNat := by
  rw [← BitVec.toNat_inj, zext13_toNat]

end Sys2Proof

namespace Sys2Proof.Machine

section Frames

theorem keepsMemory_of_mem_eq {s t : State} (h : t.mem = s.mem) : KeepsMemory s t :=
  ⟨h, fun key => congrArg (Memory.readByte · key) h, fun a => congrArg (Memory.readCell · a) h⟩

theorem setPc_frame (s : State) (v : Word) :
    KeepsRegisters s (s.setPc v) ∧ KeepsMemory s (s.setPc v) ∧ KeepsCaches s (s.setPc v) :=
  ⟨rfl, keepsMemory_of_mem_eq rfl, rfl, rfl⟩

theorem halt_frame (s : State) : KeepsRegisters s s.halt ∧ KeepsMemory s s.halt ∧ KeepsCaches s s.halt :=
  ⟨rfl, keepsMemory_of_mem_eq rfl, rfl, rfl⟩

theorem State.setPc_self (s : State) : s.setPc s.pc = s := rfl

theorem nextPc_eq_ofNat (cur : Word) : nextPc cur = BitVec.ofNat 16 (cur.toNat + 1) :=
  BitVec.eq_of_toNat_eq (nextPc_toNat cur)

/-- The target of a taken JumpIfEqual as a number: it wraps at 65536 (R67). -/
theorem relativeTarget_toNat (cur imm : Word) :
    (relativeTarget cur imm).toNat = (cur.toNat + 1 + imm.toNat) % 65536 := by
  rw [relativeTarget, BitVec.toNat_add, nextPc_toNat, Nat.mod_add_mod]

/-- Displacement -1 leads back to the JumpIfEqual itself (R68). -/
theorem relativeTarget_minus_one (cur : Word) : relativeTarget cur 0xFFFF = cur := by
  rw [relativeTarget, nextPc, BitVec.add_assoc]
  exact BitVec.add_zero cur

/-- Two states with the same memory, whose pcs name the same cell, fetch the same word (R14, R23). -/
theorem fetchWord_congr {s t : State} (hmem : t.mem = s.mem) (hcell : cellOf t.pc = cellOf s.pc) :
    t.fetchWord = s.fetchWord := by
  rw [State.fetchWord, State.memRead, State.loadCell, hmem, hcell]
  rfl

end Frames

section Instructions

variable {cfg : CacheConfig} {i : Instr} {s t : State} {target : Word}

/-- The next pc of every instruction (the table of R63). -/
def pcTable (i : Instr) (s : State) : Word :=
  match i with
  | .jr a => s.readReg a
  | .j target => target
  | .jal target => target
  | .jeq a b imm => if s.readReg a = s.readReg b then s.pc + 1 + imm else s.pc + 1
  | i => if i.isUndefined = true then s.pc else s.pc + 1

/-- A Jump to the pc it was fetched with halts and does nothing else (R65). -/
theorem execIn_j_self (cfg : CacheConfig) (s : State) : execIn cfg (.j s.pc) s = .next s.halt :=
  congrArg Host.Outcome.next (if_pos ((equalWords_iff _ _).mpr rfl))

/-- A Jump to anywhere else is taken (R65). -/
theorem execIn_j_of_ne (cfg : CacheConfig) (h : target ≠ s.pc) : execIn cfg (.j target) s = .next (s.setPc target) :=
  congrArg Host.Outcome.next (if_neg (mt (equalWords_iff _ _).mp h))

/-- JumpIfEqual in either case (R67). -/
theorem execIn_jeq (cfg : CacheConfig) (a b : RegIdx) (imm : Word) (s : State) : execIn cfg (.jeq a b imm) s =
    .next (s.setPc (if s.readReg a = s.readReg b then relativeTarget s.pc imm else nextPc s.pc)) :=
  congrArg (fun p => Host.Outcome.next (s.setPc p)) (if_congr (equalWords_iff _ _) rfl rfl)

/-- Every instruction leaves the pc that the table gives for it; a Jump that halts leaves its own target, which is
the pc (R63, R65). -/
theorem execIn_pc (h : execIn cfg i s = .next t) : t.pc = pcTable i s := by
  cases i with
  | j target =>
    by_cases hself : target = s.pc
    · subst hself
      obtain rfl := Host.Outcome.next.inj ((execIn_j_self cfg s).symm.trans h)
      rfl
    · obtain rfl := Host.Outcome.next.inj ((execIn_j_of_ne cfg hself).symm.trans h)
      rfl
  | jeq a b imm =>
    obtain rfl := Host.Outcome.next.inj ((execIn_jeq cfg a b imm s).symm.trans h)
    rfl
  | _ => exact congrArg State.pc (Host.Outcome.next.inj h).symm

/-- An instruction halts a Running engine exactly where it is a Jump to the pc; no other instruction changes the run
state (R65, R68). -/
theorem execIn_halts_iff (hr : s.run = .running) (h : execIn cfg i s = .next t) : t.run = .halted ↔ i = .j s.pc := by
  cases i with
  | j target =>
    by_cases hself : target = s.pc
    · subst hself
      obtain rfl := Host.Outcome.next.inj ((execIn_j_self cfg s).symm.trans h)
      exact iff_of_true rfl rfl
    · obtain rfl := Host.Outcome.next.inj ((execIn_j_of_ne cfg hself).symm.trans h)
      exact iff_of_false (fun ht => nomatch hr.symm.trans ht) fun e => hself (Instr.j.inj e)
  | _ =>
    obtain rfl := Host.Outcome.next.inj h
    exact iff_of_false (fun ht => nomatch hr.symm.trans ht) nofun

/-- A step that halts a Running engine is that of a Jump to the pc, and the run state is all it changes (R65, R68). -/
theorem stepIn_eq_halt (hr : s.run = .running) (h : stepIn cfg s = .next t) (ht : t.run = .halted) :
    decode s.fetchWord = .j s.pc ∧ t = s.halt := by
  rw [stepIn_of_running cfg hr] at h
  have hi := (execIn_halts_iff hr h).mp ht
  rw [hi, execIn_j_self] at h
  exact ⟨hi, (Host.Outcome.next.inj h).symm⟩

end Instructions

/-- A run that reaches a state is a run of the block from there on. -/
theorem blockIn_run_add_of_runSequence {cfg : CacheConfig} {s t : State} {k : Nat} (h : runSequence cfg s k = some t)
    (m : Nat) : (blockIn cfg).run (k + m) s = (blockIn cfg).run m t := by
  induction k generalizing t m with
  | zero =>
    obtain rfl : s = t := Option.some.inj h
    rw [Nat.zero_add]
  | succ k ih =>
    obtain ⟨r, hr, -, hstep⟩ := runSequence_succ_eq_some h
    calc (blockIn cfg).run (k + 1 + m) s
      _ = (blockIn cfg).run (k + (m + 1)) s := by rw [Nat.add_right_comm, Nat.add_assoc]
      _ = (blockIn cfg).run (m + 1) r := ih hr (m + 1)
      _ = (blockIn cfg).run m t := blockIn_run_succ_of_step m hstep

/-- A property of Running states that every step keeps, in the same next state under every configuration, holds after
any number of steps of the run (R108). -/
theorem runSequence_keeps {P : State → Prop} (hrun : ∀ s, P s → s.run = .running)
    (hstep : ∀ s, P s → ∃ t, (∀ cfg, stepIn cfg s = .next t) ∧ P t) {s : State} (hs : P s) (n : Nat) :
    ∃ t, (∀ cfg, runSequence cfg s n = some t) ∧ P t := by
  induction n with
  | zero => exact ⟨s, fun cfg => runSequence_zero cfg s, hs⟩
  | succ n ih =>
    obtain ⟨t, hseq, ht⟩ := ih
    obtain ⟨u, hu, hPu⟩ := hstep t ht
    exact ⟨u, fun cfg => runSequence_succ_of_step (hseq cfg) (hrun t ht) (hu cfg), hPu⟩

section SelfLoops

variable {s : State} {p : Word}

/-- A Running engine at one of the three loops of one instruction, with the pc `p` (R68, R113 (b)). -/
def LoopsAt (p : Word) (s : State) : Prop :=
  s.run = .running ∧ s.pc = p ∧
    (decode s.fetchWord = .jal p ∨ (∃ a, decode s.fetchWord = .jr a ∧ s.readReg a = p) ∨
      ∃ a b, decode s.fetchWord = .jeq a b 0xFFFF ∧ s.readReg a = s.readReg b)

/-- The loop goes on after every step, under every configuration. JumpAndLink changes its link register and fetches
itself again; the two others step to the same state (R68). -/
theorem LoopsAt.next (h : LoopsAt p s) : ∃ t, (∀ cfg, stepIn cfg s = .next t) ∧ LoopsAt p t := by
  obtain ⟨hr, rfl, hi⟩ := h
  have hself (hexec : ∀ cfg, execIn cfg (decode s.fetchWord) s = .next s) :
      ∃ t, (∀ cfg, stepIn cfg s = .next t) ∧ LoopsAt s.pc t :=
    ⟨s, fun cfg => (stepIn_of_running cfg hr).trans (hexec cfg), hr, rfl, hi⟩
  rcases hi with hjal | ⟨a, hjr, hreg⟩ | ⟨a, b, hjeq, hreg⟩
  · refine ⟨(s.writeReg Config.linkReg (nextPc s.pc)).setPc s.pc, fun cfg => ?_, hr, rfl, .inl ?_⟩
    · rw [stepIn_of_running cfg hr, hjal]
      rfl
    · exact (congrArg decode (fetchWord_congr rfl rfl)).trans hjal
  · refine hself fun cfg => ?_
    calc execIn cfg (decode s.fetchWord) s
      _ = .next (s.setPc (s.readReg a)) := by rw [hjr]; rfl
      _ = .next s := by rw [hreg, State.setPc_self]
  · exact hself fun cfg => by rw [hjeq, execIn_jeq, if_pos hreg, relativeTarget_minus_one, State.setPc_self]

/-- After any number of steps the run has a state, the same under every configuration, which is still at the loop. -/
theorem LoopsAt.after_steps (h : LoopsAt p s) (n : Nat) :
    ∃ t, (∀ cfg, runSequence cfg s n = some t) ∧ LoopsAt p t :=
  runSequence_keeps (fun _ ⟨hr, _⟩ => hr) (fun _ => LoopsAt.next) h n

end SelfLoops

/-- Settles O17: the word's other register fields are ignored, and the pc alone is written. -/
theorem jumpRegisterLoadsPc : Obligations.JumpRegisterLoadsPc :=
  fun a x y => ⟨decode_formatRRR_jr a x y, fun s => ⟨_, rfl, rfl, rfl, setPc_frame s _⟩⟩

/-- Settles O18, by cases on whether the target is the pc. -/
theorem jumpHaltsOrTransfers : Obligations.JumpHaltsOrTransfers := by
  intro v
  obtain ⟨-, -, hdecode, -⟩ := targetIsZeroExtended v
  refine ⟨hdecode, fun s => ?_⟩
  rw [← execIn_config]
  by_cases h : zext13 v = s.pc
  · refine ⟨s.halt, h ▸ execIn_j_self _ s, ?_, halt_frame s⟩
    rw [if_pos ((zext13_eq_iff v s.pc).mp h)]
    exact ⟨rfl, rfl⟩
  · refine ⟨s.setPc (zext13 v), execIn_j_of_ne _ h, ?_, setPc_frame s _⟩
    rw [if_neg (mt (zext13_eq_iff v s.pc).mpr h)]
    exact ⟨rfl, zext13_toNat v⟩

/-- Settles O19: the link value is the sequential successor, written before the pc. -/
theorem jumpAndLinkLinksRegisterSeven : Obligations.JumpAndLinkLinksRegisterSeven := by
  intro v
  obtain ⟨-, -, -, hdecode⟩ := targetIsZeroExtended v
  refine ⟨hdecode, fun s => ⟨_, rfl, ?_, zext13_toNat v, rfl, keepsMemory_of_mem_eq rfl, rfl, rfl⟩⟩
  rw [← nextPc_eq_ofNat]
  exact State.readReg_writeReg s Config.linkReg (nextPc s.pc)

/-- Settles O20: the pc is the relative target or the sequential successor, each as a number. -/
theorem jumpIfEqualBranches : Obligations.JumpIfEqualBranches := by
  intro a b v
  obtain ⟨-, hdecode⟩ := immediateIsSignExtended
  obtain ⟨-, -, -, hjeq, -⟩ := hdecode a b v
  refine ⟨hjeq, fun s => ?_⟩
  rw [← execIn_config, execIn_jeq]
  refine ⟨_, rfl, ?_, rfl, setPc_frame s _⟩
  rw [State.setPc_pc]
  split
  · exact relativeTarget_toNat _ _
  · exact nextPc_toNat _

/-- Settles O25, from the table for the executed instruction. -/
theorem programCounterTable : Obligations.ProgramCounterTable := by
  intro cfg s t hr h
  obtain ⟨c, h⟩ := exists_stepIn h
  rw [stepIn_of_running c hr] at h
  exact execIn_pc h

/-- Settles O27, from the executed instruction. -/
theorem haltsExactlyOnSelfJump : Obligations.HaltsExactlyOnSelfJump := by
  intro cfg s t hr h
  obtain ⟨c, h⟩ := exists_stepIn h
  rw [stepIn_of_running c hr] at h
  exact execIn_halts_iff hr h

/-- Settles O29: being at the loop is an invariant of the run, and the block's run follows the run as a sequence. -/
theorem selfLoopsRunForever : Obligations.SelfLoopsRunForever := by
  intro cfg s n hr hi
  have hloop : LoopsAt s.pc s := ⟨hr, rfl, hi⟩
  constructor
  · obtain ⟨t, hseq, htr, hpc, -⟩ := hloop.after_steps n
    have hblock (c : CacheConfig) : (blockIn c).run n s = .next t := blockIn_run_add_of_runSequence (hseq c) 0
    exact ⟨t, (run_eq_blockIn_run n s).trans (hblock Config.cache), hblock cfg, htr, hpc⟩
  · intro m
    obtain ⟨t, hseq, htr, -⟩ := hloop.after_steps m
    exact ⟨t, hseq cfg, htr⟩

/-- Settles O30: the target differs from the pc but names its cell, so that the same Jump is fetched once more, now with
the pc at its target. -/
theorem aliasedSelfJumpHaltsOneStepLater : Obligations.AliasedSelfJumpHaltsOneStepLater := by
  intro cfg s target hr hpc hi htarget
  have hne : target ≠ s.pc := by
    rintro rfl
    omega
  have hcell : cellOf target = cellOf s.pc := by
    apply BitVec.eq_of_toNat_eq
    rw [cellOf_toNat, cellOf_toNat]
    omega
  have hfetch : (s.setPc target).fetchWord = s.fetchWord := fetchWord_congr rfl hcell
  have hjump (c : CacheConfig) : stepIn c s = .next (s.setPc target) := by
    rw [stepIn_of_running c hr, hi, execIn_j_of_ne c hne]
  have hhalt (c : CacheConfig) : stepIn c (s.setPc target) = .next (s.setPc target).halt := by
    rw [stepIn_of_running (s := s.setPc target) c hr, hfetch, hi]
    exact execIn_j_self c (s.setPc target)
  exact ⟨s.setPc target, (s.setPc target).halt, (stepIn_config s).symm.trans (hjump _), hjump cfg, hr, rfl,
    (stepIn_config _).symm.trans (hhalt _), hhalt cfg, rfl, rfl⟩

/-- Settles O48: a run from a Running state gets to a Halted one by a step that halts, which keeps pc and memory. -/
theorem finalPcIsTheHaltingJump : Obligations.FinalPcIsTheHaltingJump := by
  intro cfg s t n hr h
  rcases drive_cases cfg s n with ⟨u, hu, -⟩ | ⟨k, -, u, hu, hseq, hhalted⟩
  · cases hu.symm.trans h
  · obtain rfl : u = t := RunEnd.halted.inj (hu.symm.trans h)
    cases k with
    | zero =>
      obtain rfl : s = u := Option.some.inj hseq
      cases hr.symm.trans hhalted
    | succ k =>
      obtain ⟨r, -, hrun, hstep⟩ := runSequence_succ_eq_some hseq
      obtain ⟨hjump, rfl⟩ := stepIn_eq_halt hrun hstep hhalted
      exact ⟨(congrArg decode (fetchWord_congr rfl rfl)).trans hjump, rfl, rfl, rfl, rfl⟩

end Sys2Proof.Machine

/-! Proofs about loads and stores (43_load_store.md). The idea: what the two operations answer, field by field, is said
once under any configuration; here these fields become the whole effect of the instruction, the machine of `exec` being that
of the constant configuration. -/

namespace Sys2Proof.Machine

/-- The only cell and the only two bytes that `writeCell` can change are those of its address (R29). -/
theorem storesCell_of_mem_eq {s t : State} {b : RegIdx} {addr : CellAddr}
    (h : t.mem = s.mem.writeCell addr (s.readReg b)) : StoresCell s t b addr := by
  unfold StoresCell State.loadCell
  rw [h]
  exact ⟨Memory.readCell_writeCell_self _ _ _, fun c => Memory.readCell_writeCell_ne _ _ c _,
    Memory.readByte_writeCell_ne _ _ _⟩

theorem advances_of_pc_eq {s t : State} (h : t.pc = nextPc s.pc) : Advances s t :=
  (congrArg BitVec.toNat h).trans (nextPc_toNat s.pc)

/-- LoadWord completes with its whole effect under every configuration (R71). -/
theorem execIn_lw_effect (cfg : CacheConfig) (b a : RegIdx) (imm : Word) (s : State) :
    ∃ t, execIn cfg (.lw b a imm) s = .next t ∧ LoadEffect cfg s t b (effAddr s a imm) := by
  obtain ⟨t, ht, hregs, hpc, hrun, hmem, hpresents⟩ := loadWordIn_answers cfg b a imm s
  have hwrites : WritesRegister s t b (s.loadCell (effAddr s a imm)) := fun q =>
    (State.readReg_congr hregs q).trans (State.readReg_writeReg s b _ q)
  exact ⟨t, ht, hwrites, hpresents, advances_of_pc_eq hpc, hrun, keepsMemory_of_mem_eq hmem⟩

/-- StoreWord completes with its whole effect under every configuration (R72). -/
theorem execIn_sw_effect (cfg : CacheConfig) (b a : RegIdx) (imm : Word) (s : State) :
    ∃ t, execIn cfg (.sw b a imm) s = .next t ∧ StoreEffect cfg s t b (effAddr s a imm) := by
  obtain ⟨t, ht, hmem, hregs, hpc, hrun, hpresents⟩ := storeWordIn_answers cfg b a imm s
  exact ⟨t, ht, storesCell_of_mem_eq hmem, hpresents, advances_of_pc_eq hpc, hrun, hregs⟩

/-- Settles O21: the word is one of those with a widened immediate (R44), and the effect is that of every
configuration. -/
theorem loadWordReadsCell : Obligations.LoadWordReadsCell := by
  intro a b v
  obtain ⟨-, hdecode⟩ := immediateIsSignExtended
  obtain ⟨-, hlw, -⟩ := hdecode a b v
  have heffect (s : State) (cfg : CacheConfig) := execIn_lw_effect cfg b a (sext7 v) s
  exact ⟨hlw, fun s => ⟨effAddr_toNat s a _, execIn_config _ s ▸ heffect s Config.cache, heffect s⟩⟩

/-- Settles O22: the word is one of those with a widened immediate (R44), and the effect is that of every
configuration. -/
theorem storeWordWritesCell : Obligations.StoreWordWritesCell := by
  intro a b v
  obtain ⟨-, hdecode⟩ := immediateIsSignExtended
  obtain ⟨-, -, hsw, -⟩ := hdecode a b v
  have heffect (s : State) (cfg : CacheConfig) : ∃ t, execIn cfg (.sw b a (sext7 v)) s = .next t ∧
      ∀ addr, addr = effAddr s a (sext7 v) → StoreEffect cfg s t b addr := by
    obtain ⟨t, ht, hstore⟩ := execIn_sw_effect cfg b a (sext7 v) s
    exact ⟨t, ht, fun _ haddr => haddr ▸ hstore⟩
  exact ⟨hsw, fun s => ⟨effAddr_toNat s a _, execIn_config _ s ▸ heffect s Config.cache, heffect s⟩⟩

end Sys2Proof.Machine

/-! Proofs about the cache controller (45_cache_controller.md; 60_exceptions.md section 5). Two ideas. True LRU: a row is the
last `associativity` lines of one endless list of lines, `EMPTY` ones and then every accessed tag, least recent first, in
which an access moves its tag to the end; the update of the row does the same to the row. Transparency: a machine without
a level, from the state without directories and events, takes the steps that the machine takes under any configuration. -/

namespace Sys2Proof.Machine

section RowsAndTags

variable {sh : LevelShape} {row : Row} {t : Nat}

/-- Block numbers are written in the base of the row count, with the tag and the row as the digits (R79). -/
theorem blockId_eq (sh : LevelShape) (p : CellAddr) : blockId sh p = tagOf sh p * rowCount sh + rowIndex sh p :=
  (Nat.div_add_mod' _ _).symm

theorem rowIndex_lt (h : shapeLegal sh = true) (p : CellAddr) : rowIndex sh p < rowCount sh :=
  Nat.mod_lt _ (pos_of_shapeLegal h).2

theorem rowIndex_tagOf_eq_iff (sh : LevelShape) (p q : CellAddr) :
    (rowIndex sh p = rowIndex sh q ∧ tagOf sh p = tagOf sh q) ↔ blockId sh p = blockId sh q := by
  constructor
  · rintro ⟨hrow, htag⟩
    rw [blockId_eq, blockId_eq, hrow, htag]
  · intro h
    exact ⟨congrArg (· % rowCount sh) h, congrArg (· / rowCount sh) h⟩

/-- The update of a row in both cases: the line that holds the tag goes, or else the front line, and the tag is appended
(R82, R83). -/
theorem updateRow_eq (row : Row) (t : Nat) :
    updateRow row t = (if Line.tag t ∈ row then row.erase (.tag t) else row.tail) ++ [.tag t] := by
  by_cases h : Line.tag t ∈ row
  · obtain ⟨front, back, rfl, hfront⟩ := List.eq_append_cons_of_mem h
    rw [if_pos h, updateRow_append back hfront, List.erase_append_right _ hfront, List.erase_cons_head]
  · rw [if_neg h]
    cases row with
    | nil => rfl
    | cons first rest => exact updateRow_cons h

theorem updateRow_length (hrow : row ≠ []) (t : Nat) : (updateRow row t).length = row.length := by
  have hpos := List.length_pos_iff.mpr hrow
  rw [updateRow_eq, List.length_append, List.length_singleton]
  split
  · next h => rw [List.length_erase_of_mem h]; omega
  · rw [List.length_tail]; omega

end RowsAndTags

section OneLevel

variable {sh : LevelShape} {dir : Directory} {addr : CellAddr} {row : Row}

theorem rowAt_eq (h : dir[rowIndex sh addr]? = some row) : rowAt sh dir addr = row := by
  simp [rowAt, List.getD_eq_getElem?_getD, h]

/-- The event of an access, with the status said from the contents of the addressed row (R81, R86). -/
theorem levelEvent_eq (name : LevelName) (pcv : Word) (isStore : Bool) (h : dir[rowIndex sh addr]? = some row) :
    levelEvent sh dir name addr pcv isStore =
      { level := name, pc := pcv, address := addr, row := rowIndex sh addr
        status := if isStore = true then .storeWrite
          else if Line.tag (tagOf sh addr) ∈ row then .hit else .miss } := by
  simp only [levelEvent, statusOf, levelHits_iff, rowAt_eq h]

theorem levelAccess_addressed_row (h : dir[rowIndex sh addr]? = some row) :
    (levelAccess sh dir addr)[rowIndex sh addr]? = some (updateRow row (tagOf sh addr)) := by
  obtain ⟨hlt, -⟩ := List.getElem?_eq_some_iff.mp h
  rw [levelAccess, List.getElem?_set_self hlt, rowAt_eq h]

theorem levelAccess_other_row (dir : Directory) {r : Nat} (h : r ≠ rowIndex sh addr) :
    (levelAccess sh dir addr)[r]? = dir[r]? :=
  List.getElem?_set_ne h.symm

end OneLevel

section LeastRecentlyUsed

/-- Dropping repetitions from the most recent end of a list keeps the last occurrence of each element. -/
theorem eraseDups_reverse (tags : List Nat) : tags.reverse.eraseDups = tags.dedup.reverse := by
  induction tags with
  | nil => rfl
  | cons u tags ih =>
    rw [List.reverse_cons, List.eraseDups_append, ih]
    by_cases h : u ∈ tags
    · simp [List.dedup_cons_of_mem h, List.removeAll, h]
    · simp [List.dedup_cons_of_notMem h, List.removeAll, h, List.eraseDups_cons]

/-- One more element goes to the end of the list without repetitions, and leaves its former place. -/
theorem dedup_concat (tags : List Nat) (t : Nat) : (tags ++ [t]).dedup = tags.dedup.erase t ++ [t] := by
  induction tags with
  | nil => rfl
  | cons u tags ih =>
    rw [List.cons_append]
    by_cases hu : u ∈ tags
    · rw [List.dedup_cons_of_mem hu, List.dedup_cons_of_mem (List.mem_append_left _ hu), ih]
    · rw [List.dedup_cons_of_notMem hu]
      by_cases htu : u = t
      · subst htu
        have hdedup : u ∉ tags.dedup := mt List.mem_dedup.mp hu
        rw [List.dedup_cons_of_mem (by simp), ih, List.erase_cons_head, List.erase_of_not_mem hdedup]
      · rw [List.dedup_cons_of_notMem (by simp [hu, htu]), ih, List.erase_cons_tail (by simpa using htu),
          List.cons_append]

/-- The lines of a row that never evicts a tag: `EMPTY` lines, as many as a row has lines, and every accessed tag, the
least recent first. -/
def endlessRow (lines : Nat) (tags : List Nat) : Row :=
  orderedRow lines tags.dedup

/-- The true LRU row is the end of the endless one (R89 (d)). -/
theorem lruRow_suffix (lines : Nat) (tags : List Nat) : lruRow lines tags <:+ endlessRow lines tags := by
  have hdrop : lruRow lines tags = (endlessRow lines tags).drop tags.dedup.length := by
    simp only [lruRow, endlessRow, orderedRow, eraseDups_reverse, List.take_reverse, List.reverse_reverse,
      List.length_reverse, List.length_drop, List.drop_append, List.drop_replicate, List.length_replicate, List.map_drop]
    congr 2
    omega
  exact hdrop ▸ List.drop_suffix _ _

theorem lruRow_length (lines : Nat) (tags : List Nat) : (lruRow lines tags).length = lines := by
  simp [lruRow]

/-- A line that holds a tag goes from a row in order with its tag (R89). -/
theorem orderedRow_erase (empties : Nat) (tags : List Nat) (t : Nat) :
    (orderedRow empties tags).erase (.tag t) = orderedRow empties (tags.erase t) := by
  have hempty : Line.tag t ∉ List.replicate empties Line.empty := fun h => nomatch List.eq_of_mem_replicate h
  rw [orderedRow, List.erase_append_right _ hempty, ← List.map_erase (fun _ _ => Line.tag.inj), orderedRow]

/-- One more access moves its tag to the end of the endless row. -/
theorem endlessRow_concat (lines : Nat) (tags : List Nat) (t : Nat) :
    endlessRow lines (tags ++ [t]) = (endlessRow lines tags).erase (.tag t) ++ [.tag t] := by
  rw [endlessRow, endlessRow, orderedRow_erase, dedup_concat]
  simp [orderedRow]

/-- No tag stands twice in the endless row. -/
theorem tag_notMem_endlessRow_erase (lines : Nat) (tags : List Nat) (t : Nat) :
    Line.tag t ∉ (endlessRow lines tags).erase (.tag t) := by
  rw [endlessRow, orderedRow_erase, tag_mem_orderedRow]
  exact (List.nodup_dedup tags).not_mem_erase

/-- The update of a row that is the end of a list of lines is the end of that list with the tag moved to its end, where the
list holds the tag at most once. -/
theorem updateRow_suffix {lines row : Row} {t : Nat} (hrow : row <:+ lines)
    (honce : Line.tag t ∉ lines.erase (.tag t)) : updateRow row t <:+ lines.erase (.tag t) ++ [.tag t] := by
  obtain ⟨older, rfl⟩ := hrow
  rw [updateRow_eq, List.suffix_append_inj_of_length_eq rfl]
  refine ⟨?_, rfl⟩
  rw [List.erase_append] at honce ⊢
  split at honce
  · next holder =>
    have hmiss : Line.tag t ∉ row := fun h => honce (List.mem_append_right _ h)
    rw [if_neg hmiss, if_pos holder]
    exact (List.tail_suffix row).trans (List.suffix_append _ _)
  · next holder =>
    rw [if_neg holder]
    refine List.IsSuffix.trans ?_ (List.suffix_append older _)
    split
    · exact List.suffix_rfl
    · next hmiss => exact (List.erase_of_not_mem hmiss).symm ▸ List.tail_suffix row

/-- An access to the true LRU row updates it to the true LRU row (R82, R83, R89 (d)): both are the end, of the same length,
of the endless row after the access. -/
theorem lruRow_concat {lines : Nat} (hlines : 0 < lines) (tags : List Nat) (t : Nat) :
    lruRow lines (tags ++ [t]) = updateRow (lruRow lines tags) t := by
  have hrow : lruRow lines tags ≠ [] := List.length_pos_iff.mp ((lruRow_length lines tags).symm ▸ hlines)
  have hnew : lruRow lines (tags ++ [t]) <:+ (endlessRow lines tags).erase (.tag t) ++ [.tag t] :=
    endlessRow_concat lines tags t ▸ lruRow_suffix lines (tags ++ [t])
  have hupdated := updateRow_suffix (lruRow_suffix lines tags) (tag_notMem_endlessRow_erase lines tags t)
  have hlength : (lruRow lines (tags ++ [t])).length = (updateRow (lruRow lines tags) t).length := by
    rw [updateRow_length hrow, lruRow_length, lruRow_length]
  exact (List.suffix_of_suffix_length_le hnew hupdated hlength.le).eq_of_length hlength

end LeastRecentlyUsed

section History

variable {cfg : CacheConfig} {s t : State} {sh : LevelShape} {dir : Directory} {name : LevelName} {a : CellAddr}

@[simp] theorem accessedTags_append (sh : LevelShape) (name : LevelName) (events emitted : List AccessEvent) (r : Nat) :
    accessedTags sh name (events ++ emitted) r = accessedTags sh name events r ++ accessedTags sh name emitted r :=
  List.filterMap_append

@[simp] theorem accessedTags_nil (sh : LevelShape) (name : LevelName) (r : Nat) : accessedTags sh name [] r = [] := rfl

/-- An event counts for the history of a row where its level and its address's row are the ones asked for. -/
@[simp] theorem accessedTags_cons (sh : LevelShape) (name : LevelName) (e : AccessEvent) (events : List AccessEvent)
    (r : Nat) :
    accessedTags sh name (e :: events) r =
      (if e.level = name ∧ rowIndex sh e.address = r then [tagOf sh e.address] else []) ++
        accessedTags sh name events r := by
  by_cases h : e.level = name ∧ rowIndex sh e.address = r
  · simp [accessedTags, h]
  · simp [accessedTags, h]

/-- The empty history gives a row of `EMPTY` lines (R78). -/
theorem lruRow_nil (associativity : Nat) : lruRow associativity [] = List.replicate associativity .empty := by
  simp [lruRow]

/-- A configured level is left alone by an access, and emits nothing, or it reacts to it, and its history takes the
access's tag in the addressed row (R84, R85). -/
theorem cacheAccess_level_cases (hsh : levelShape? cfg name = some sh) (d : Directories) (a : CellAddr) (p : Word)
    (st : Bool) :
    ((cacheAccess cfg d a p st).1.level name = d.level name ∧
      ∀ r, accessedTags sh name (cacheAccess cfg d a p st).2 r = []) ∨
    (cacheAccess cfg d a p st).1.level name = levelAccess sh (d.level name) a ∧
      ∀ r, accessedTags sh name (cacheAccess cfg d a p st).2 r = if rowIndex sh a = r then [tagOf sh a] else [] := by
  cases cfg with
  | absent => cases name <;> cases hsh
  | oneLevel s1 =>
    cases name with
    | L1 => cases hsh; exact .inr ⟨rfl, by simp⟩
    | L2 => cases hsh
  | twoLevels s1 s2 =>
    rw [cacheAccess_twoLevels]
    cases name with
    | L1 =>
      cases hsh
      split <;> exact .inr ⟨rfl, by simp⟩
    | L2 =>
      cases hsh
      split
      · exact .inr ⟨rfl, by simp⟩
      · exact .inl ⟨rfl, by simp⟩

/-- An access keeps a level's directory the true LRU one, where the history takes the access's tag in the addressed row
(R84, R89 (d)). -/
theorem directoryFollowsHistory_levelAccess {events emitted : List AccessEvent} (hlines : 0 < sh.associativity)
    (h : directoryFollowsHistory sh dir name events)
    (hemitted : ∀ r, accessedTags sh name emitted r = if rowIndex sh a = r then [tagOf sh a] else []) :
    directoryFollowsHistory sh (levelAccess sh dir a) name (events ++ emitted) := by
  intro r hr
  rw [levelAccess_length] at hr
  rw [accessedTags_append, hemitted]
  split
  · next hrow =>
    subst hrow
    rw [lruRow_concat hlines]
    exact levelAccess_addressed_row (h _ hr)
  · next hrow =>
    rw [List.append_nil, levelAccess_other_row dir (Ne.symm hrow)]
    exact h r hr

/-- A presented access keeps every configured level's directory the true LRU one. -/
theorem PresentsAccess.keeps_followsHistory {st : Bool} (hp : PresentsAccess cfg s t a st) (hs : s.FollowsHistory cfg) :
    t.FollowsHistory cfg := by
  obtain ⟨hcaches, hevents⟩ := hp
  intro name sh hsh
  rw [hcaches, hevents]
  rcases cacheAccess_level_cases hsh s.caches a s.pc st with ⟨hdir, hemitted⟩ | ⟨hdir, hemitted⟩
  · intro r hr
    rw [hdir] at hr ⊢
    rw [accessedTags_append, hemitted, List.append_nil]
    exact hs name sh hsh r hr
  · rw [hdir]
    obtain ⟨hlines, -⟩ := pos_of_shapeLegal (shapeLegal_of_levelShape? hsh)
    exact directoryFollowsHistory_levelAccess hlines (hs name sh hsh) hemitted

/-- Every step keeps the directories the true LRU ones, under every configuration. -/
theorem stepIn_keeps_followsHistory (hs : s.FollowsHistory cfg) (h : stepIn cfg s = .next t) : t.FollowsHistory cfg := by
  rcases stepIn_keepsCaches_or_presentsAccess h with ⟨hcaches, hevents⟩ | ⟨-, b, a, imm, st, -, hp⟩
  · intro name sh hsh
    rw [hcaches, hevents]
    exact hs name sh hsh
  · exact hp.keeps_followsHistory hs

/-- The directories of a start state are those of the empty history (R22, R78). -/
theorem startState_followsHistory (cfg : CacheConfig) (mem : Memory) : (startState cfg mem).FollowsHistory cfg := by
  intro name sh hsh r hr
  rw [startState_caches, emptyDirectories_level hsh] at hr ⊢
  rw [emptyDirectory, List.length_replicate] at hr
  rw [startState_events, emptyDirectory, List.getElem?_replicate_of_lt hr]
  exact congrArg some (lruRow_nil sh.associativity).symm

end History

section Transparency

variable {cfg : CacheConfig} {i : Instr} {s t : State}

/-- The state with no directory and no event: what the program sees of it (R90). -/
def State.forgetCaches (s : State) : State :=
  { s with caches := ⟨[], []⟩, events := [] }

theorem sameProgramView_iff : SameProgramView s t ↔ s.forgetCaches = t.forgetCaches := by
  simp [SameProgramView, State.forgetCaches]

/-- An instruction does under any configuration what it does without a level, but for directories and events (R90). -/
theorem execIn_forgetCaches (h : execIn cfg i s = .next t) : execIn .absent i s.forgetCaches = .next t.forgetCaches := by
  cases i with
  | j target =>
    by_cases hself : target = s.pc
    · subst hself
      obtain rfl := Host.Outcome.next.inj ((execIn_j_self cfg s).symm.trans h)
      exact execIn_j_self .absent s.forgetCaches
    · obtain rfl := Host.Outcome.next.inj ((execIn_j_of_ne cfg hself).symm.trans h)
      exact execIn_j_of_ne (s := s.forgetCaches) .absent hself
  | _ =>
    obtain rfl := Host.Outcome.next.inj h
    rfl

theorem stepIn_forgetCaches (h : stepIn cfg s = .next t) : stepIn .absent s.forgetCaches = .next t.forgetCaches := by
  rcases stepIn_cases h with ⟨hr, rfl⟩ | ⟨hr, h⟩
  · exact stepIn_of_halted (s := t.forgetCaches) .absent hr
  · exact (stepIn_of_running (s := s.forgetCaches) .absent hr).trans (execIn_forgetCaches h)

/-- After any number of steps the machine of any configuration has a state, and the machine without a level has the same
one, but for directories and events (R90). -/
theorem blockIn_run_forgetCaches (cfg : CacheConfig) (n : Nat) (s : State) :
    ∃ t : State, (blockIn cfg).run n s = .next t ∧ (blockIn .absent).run n s.forgetCaches = .next t.forgetCaches := by
  induction n generalizing s with
  | zero => exact ⟨s, blockIn_run_zero cfg s, blockIn_run_zero .absent _⟩
  | succ n ih =>
    obtain ⟨r, hr⟩ := stepIn_completes cfg s
    obtain ⟨t, hrun, hforget⟩ := ih r
    exact ⟨t, (blockIn_run_succ_of_step n hr).trans hrun,
      (blockIn_run_succ_of_step n (stepIn_forgetCaches hr)).trans hforget⟩

/-- Runs of any two configurations from states with the same program view end in such states (R90). -/
theorem blockIn_run_sameProgramView {c d : CacheConfig} {n : Nat} {s t s' t' : State} (h : SameProgramView s t)
    (hs : (blockIn c).run n s = .next s') (ht : (blockIn d).run n t = .next t') : SameProgramView s' t' := by
  obtain ⟨u, hu, hsforget⟩ := blockIn_run_forgetCaches c n s
  obtain ⟨v, hv, htforget⟩ := blockIn_run_forgetCaches d n t
  obtain rfl : u = s' := Host.Outcome.next.inj (hu.symm.trans hs)
  obtain rfl : v = t' := Host.Outcome.next.inj (hv.symm.trans ht)
  rw [sameProgramView_iff.mp h, htforget] at hsforget
  exact sameProgramView_iff.mpr (Host.Outcome.next.inj hsforget).symm

end Transparency

section Emission

variable {cfg : CacheConfig} {s t : State}

/-- The events of an access: each with the pc it was made at, in the order of the levels (R86, R87). -/
theorem cacheAccess_events (cfg : CacheConfig) (d : Directories) (a : CellAddr) (p : Word) (st : Bool) :
    (∀ e ∈ (cacheAccess cfg d a p st).2, e.pc = p) ∧
      ((cacheAccess cfg d a p st).2.map (·.level) = [] ∨ (cacheAccess cfg d a p st).2.map (·.level) = [.L1] ∨
        (cacheAccess cfg d a p st).2.map (·.level) = [.L1, .L2]) := by
  cases cfg with
  | absent => simp
  | oneLevel s1 => simp
  | twoLevels s1 s2 => rw [cacheAccess_twoLevels]; split <;> simp

theorem stepIn_absent_keepsCaches (h : stepIn .absent s = .next t) : KeepsCaches s t := by
  rcases stepIn_keepsCaches_or_presentsAccess h with hkeeps | ⟨-, b, a, imm, st, -, hcaches, hevents⟩
  · exact hkeeps
  · exact ⟨hcaches, hevents.trans (List.append_nil _)⟩

/-- No number of steps of the machine without a level changes directories or events (R88). -/
theorem blockIn_absent_run_keepsCaches (n : Nat) (s : State) :
    ∃ t : State, (blockIn .absent).run n s = .next t ∧ KeepsCaches s t := by
  induction n generalizing s with
  | zero => exact ⟨s, blockIn_run_zero .absent s, rfl, rfl⟩
  | succ n ih =>
    obtain ⟨r, hr⟩ := stepIn_completes .absent s
    obtain ⟨hcaches, hevents⟩ := stepIn_absent_keepsCaches hr
    obtain ⟨t, hrun, hcaches', hevents'⟩ := ih r
    exact ⟨t, (blockIn_run_succ_of_step n hr).trans hrun, hcaches'.trans hcaches, hevents'.trans hevents⟩

end Emission

section LegalConfigurations

variable {sh : LevelShape} {levels : List LevelShape}

/-- A level is legal exactly where its parameters are positive and a row's words divide its capacity (R75, R76). -/
theorem shapeLegal_iff : shapeLegal sh = true ↔
    0 < sh.capacity ∧ 0 < sh.associativity ∧ 0 < sh.blockSize ∧ sh.associativity * sh.blockSize ∣ sh.capacity := by
  simp only [shapeLegal, Bool.and_eq_true, decide_eq_true_eq, Nat.dvd_iff_mod_eq_zero]
  constructor
  · rintro ⟨⟨⟨⟨hcap, hassoc⟩, hblock⟩, hdvd⟩, -⟩
    exact ⟨hcap, hassoc, hblock, hdvd⟩
  · rintro ⟨hcap, hassoc, hblock, hdvd⟩
    have hle := Nat.le_of_dvd hcap (Nat.dvd_of_mod_eq_zero hdvd)
    exact ⟨⟨⟨⟨hcap, hassoc⟩, hblock⟩, hdvd⟩, Nat.div_pos hle (Nat.mul_pos hassoc hblock)⟩

/-- The row count of a legal level is exact (R76). -/
theorem capacity_eq_of_shapeLegal (h : shapeLegal sh = true) :
    sh.capacity = rowCount sh * (sh.associativity * sh.blockSize) := by
  obtain ⟨-, -, -, hdvd⟩ := shapeLegal_iff.mp h
  exact (Nat.div_mul_cancel hdvd).symm

theorem configuredShapes_length_le (cfg : CacheConfig) : (configuredShapes cfg).length ≤ 2 := by
  cases cfg <;> simp [configuredShapes]

theorem shapeLegal_of_mem_configuredShapes {cfg : CacheConfig} (h : sh ∈ configuredShapes cfg) :
    shapeLegal sh = true := by
  cases cfg with
  | absent => cases h
  | oneLevel s1 => exact List.mem_singleton.mp h ▸ s1.legal
  | twoLevels s1 s2 =>
    rcases List.mem_pair.mp h with rfl | rfl
    · exact s1.legal
    · exact s2.legal

/-- CONFIG answers every configuration for its own levels (R106). -/
theorem configure_configuredShapes (cfg : CacheConfig) : configure (configuredShapes cfg) = .ok cfg := by
  cases cfg with
  | absent => rfl
  | oneLevel s1 => exact dif_pos s1.legal
  | twoLevels s1 s2 => exact (dif_pos s1.legal).trans (dif_pos s2.legal)

theorem boot_configuredShapes (cfg : CacheConfig) (image : CellAddr → Word) :
    boot (configuredShapes cfg) image = .ok (cfg, startState cfg (Memory.ofImage image)) := by
  simp only [boot, configure_configuredShapes]

/-- At most two legal levels are those of some configuration (R74). -/
theorem exists_configuredShapes_eq (hlen : levels.length ≤ 2) (hlegal : ∀ sh ∈ levels, shapeLegal sh = true) :
    ∃ cfg, configuredShapes cfg = levels := by
  match levels with
  | [] => exact ⟨.absent, rfl⟩
  | [s1] => exact ⟨.oneLevel ⟨s1, hlegal s1 (by simp)⟩, rfl⟩
  | [s1, s2] => exact ⟨.twoLevels ⟨s1, hlegal s1 (by simp)⟩ ⟨s2, hlegal s2 (by simp)⟩, rfl⟩
  | _ :: _ :: _ :: _ => simp at hlen

end LegalConfigurations

/-- Settles O45: an access extends the history of a row by the tag with which the row is updated, and the true LRU row
follows that update. Of the invariant nothing is needed but the legality that a configuration carries. -/
theorem directoriesFollowHistory : Obligations.DirectoriesFollowHistory :=
  ⟨fun s _ _ hs h => stepIn_keeps_followsHistory hs ((stepIn_config s).trans h),
    fun _ _ _ _ => stepIn_keeps_followsHistory⟩

/-- Settles O46: both machines take the steps of the machine without a level. -/
theorem cachesAreTransparent : Obligations.CachesAreTransparent := by
  intro c d s t n h
  obtain ⟨s', hs, -⟩ := blockIn_run_forgetCaches c n s
  obtain ⟨t', ht, -⟩ := blockIn_run_forgetCaches d n t
  obtain ⟨u, hu, -⟩ := blockIn_run_forgetCaches Config.cache n s
  exact ⟨s', t', u, hs, ht, (run_eq_blockIn_run n s).trans hu, blockIn_run_sameProgramView h hs ht,
    blockIn_run_sameProgramView h hu ht⟩

/-- Settles O34: quotient and remainder by the row count determine the block. -/
theorem rowAndTagDetermineBlock : Obligations.RowAndTagDetermineBlock :=
  fun sh p q h => ⟨rfl, rfl, rfl, rowIndex_lt h p, blockId_eq sh p, rowIndex_tagOf_eq_iff sh p q⟩

/-- Settles O35, a hit and a miss. -/
theorem rowUpdateIsLeastRecentlyUsed : Obligations.RowUpdateIsLeastRecentlyUsed :=
  ⟨fun _ back _ => updateRow_append back, fun _ _ _ => updateRow_cons⟩

/-- Settles O36: the access sets the addressed row, and its event reports what that row held. -/
theorem levelAccessTouchesOneRow : Obligations.LevelAccessTouchesOneRow := by
  intro sh dir name addr pcv isStore row h
  refine ⟨levelEvent_eq name pcv isStore h, ?_, levelAccess_length sh dir addr, levelAccess_addressed_row h,
    fun r => levelAccess_other_row dir⟩
  rw [levelHits_iff, rowAt_eq h]

/-- Settles O38: the accesses leave the lines of the last one and of the last two tags. -/
theorem tagsABAMissThenHit : Obligations.TagsABAMissThenHit := by
  intro a b x y hab ha hb
  obtain ⟨hax, -⟩ : Line.tag a ≠ x ∧ Line.tag a ≠ y := by simpa using ha
  obtain ⟨-, hby⟩ : Line.tag b ≠ x ∧ Line.tag b ≠ y := by simpa using hb
  have hone : updateRow [x] a = [.tag a] := updateRow_cons (by simpa using hax)
  have hone' : updateRow [.tag a] b = [.tag b] := updateRow_cons (by simpa using hab.symm)
  have htwo : updateRow [x, y] a = [y, .tag a] := updateRow_cons ha
  have htwo' : updateRow [y, .tag a] b = [.tag a, .tag b] := updateRow_cons (by simp [hby, hab.symm])
  simp only [hone, hone', htwo, htwo', Option.isSome_iff_ne_none, ne_eq, lookupTag_eq_none_iff, not_not]
  exact ⟨⟨by simpa using hax, by simpa using hab.symm, by simpa using hab⟩, ha, by simp [hby, hab.symm], by simp⟩

/-- Settles O40: a step that presents an access appends its events, any other appends none. -/
theorem eventsAppendInLevelOrder : Obligations.EventsAppendInLevelOrder := by
  intro cfg s t h
  obtain ⟨c, h⟩ := exists_stepIn h
  rcases stepIn_keepsCaches_or_presentsAccess h with ⟨-, hevents⟩ | ⟨-, b, a, imm, st, -, -, hevents⟩
  · exact ⟨[], hevents.trans (List.append_nil _).symm, nofun, .inl rfl⟩
  · exact ⟨_, hevents, cacheAccess_events c s.caches _ s.pc st⟩

/-- Settles O42, by induction on the number of steps. -/
theorem noLevelsNoEvents : Obligations.NoLevelsNoEvents :=
  ⟨fun s n => blockIn_absent_run_keepsCaches n s, fun _ => ⟨rfl, rfl⟩⟩

/-- Settles O50, from the start state of the configuration that `boot` answers. -/
theorem startStateHasInvariants : Obligations.StartStateHasInvariants := by
  intro levels image cfg s h
  obtain ⟨-, rfl⟩ := boot_eq_ok h
  exact ⟨startState_inv cfg (Memory.wf_loadBelow image _), startState_followsHistory cfg _⟩

/-- Settles O51: the levels that `boot` accepts are those of a configuration. -/
theorem bootBuildsExactlyLegalConfigurations : Obligations.BootBuildsExactlyLegalConfigurations := by
  intro levels image
  constructor
  · rintro ⟨cfg, s, h⟩
    obtain ⟨hcfg, -⟩ := boot_eq_ok h
    obtain rfl := configuredShapes_of_configure hcfg
    exact ⟨configuredShapes_length_le cfg, fun sh hsh => shapeLegal_iff.mp (shapeLegal_of_mem_configuredShapes hsh)⟩
  · rintro ⟨hlen, hlegal⟩
    obtain ⟨cfg, rfl⟩ := exists_configuredShapes_eq hlen fun sh hsh => shapeLegal_iff.mpr (hlegal sh hsh)
    exact ⟨cfg, _, boot_configuredShapes cfg image⟩

/-- Settles O55: a configuration carries the legality of its levels, and CONFIG gives it back. -/
theorem everyMachineHasALegalConfiguration : Obligations.EveryMachineHasALegalConfiguration := by
  refine ⟨fun cfg => ⟨configuredShapes_length_le cfg, fun sh hsh => ?_, configure_configuredShapes cfg,
    boot_configuredShapes cfg⟩, fun _ _ => configuredShapes_of_configure⟩
  have hlegal := shapeLegal_of_mem_configuredShapes hsh
  obtain ⟨hcap, hassoc, hblock, -⟩ := shapeLegal_iff.mp hlegal
  exact ⟨hcap, hassoc, hblock, rowCount sh, (pos_of_shapeLegal hlegal).2, capacity_eq_of_shapeLegal hlegal⟩

/-- Settles O37: with two levels, by whether the access is a store or a load that misses L1. -/
theorem twoLevelProtocol : Obligations.TwoLevelProtocol := by
  intro s1 s2 d addr pcv
  refine ⟨fun _ => rfl, fun _ => rfl, rfl, fun hmiss => ?_, fun hhit => ?_⟩
  · rw [cacheAccess_twoLevels, hmiss]
    rfl
  · rw [cacheAccess_twoLevels, hhit]
    rfl

end Sys2Proof.Machine

/-! The proof about exceptions (60_exceptions.md section 1). The idea: completion is known under every configuration, and
`exec` and `step` are the machine of the constant configuration `Config.cache` (log entry 1), so theirs is an instance. -/

namespace Sys2Proof.Machine

/-- Settles O24, from the completion of every instruction and step under every configuration. -/
theorem stepAlwaysAnswersNext : Obligations.StepAlwaysAnswersNext := by
  refine ⟨fun i s => ?exec, fun s => ?step, fun cfg => ⟨execIn_completes cfg, stepIn_completes cfg⟩⟩
  case exec => exact execIn_config i s ▸ execIn_completes Config.cache i s
  case step => exact stepIn_config s ▸ stepIn_completes Config.cache s

end Sys2Proof.Machine

/-! The proof about step bounds (70_reset_and_hazards.md section 3, R108, R109). The idea: a drive under a bound has two
ends, and each is a state of the run as a sequence, which larger bounds and the block's run pass through as well. -/

namespace Sys2Proof.Machine

/-- Settles O47, by the two ends of a drive under a bound. -/
theorem fuelOnlyCutsRunsOff : Obligations.FuelOnlyCutsRunsOff := by
  intro cfg s t n
  rcases drive_cases cfg s n with ⟨u, hu, hseq, hr⟩ | ⟨k, hk, u, hu, hseq, hr⟩ <;> rw [hu]
  case inl =>
    refine ⟨nofun, fun h => ?_⟩
    obtain rfl := RunEnd.outOfFuel.inj h
    exact ⟨hr, blockIn_run_add_of_runSequence hseq 0⟩
  case inr =>
    refine ⟨fun h => ?_, nofun⟩
    obtain rfl := RunEnd.halted.inj h
    exact ⟨hr, fun _ hm => drive_eq_halted_of_runSequence hseq hr (hk.trans hm)⟩

end Sys2Proof.Machine

/-! The proof about the reset state (10_state.md section 9; 70_reset_and_hazards.md section 1). The idea: a cell of 0 reads as
an unlisted cell does (log entry 3), so writing it into the empty list lists nothing, and loading the all-zero image gives
the empty list, which is the memory of `State.reset`. -/

namespace Sys2Proof.Machine

/-- Where nothing is listed, writing 0 into a cell lists nothing. -/
@[simp] theorem Memory.writeCell_nil_zero (a : CellAddr) : Memory.writeCell [] a 0 = [] := rfl

/-- The all-zero image loads as the empty list (log entry 3). -/
theorem Memory.loadBelow_zero_image (n : Nat) : Memory.loadBelow (fun _ => 0) n = [] := by
  induction n with
  | zero => rfl
  | succ n ih => rw [Memory.loadBelow, ih, Memory.writeCell_nil_zero]

/-- Settles O52, by what the all-zero image loads as. -/
theorem resetIsAStartState : Obligations.ResetIsAStartState := by
  unfold Obligations.ResetIsAStartState
  rw [boot_configuredShapes, Memory.ofImage_eq, Memory.loadBelow_zero_image, State.reset]

end Sys2Proof.Machine
